-- ==== Sys2Proof/Word.lean ====
section
/-! DEFINITION. The Word (00_scope.md R1, R2) and the width parameter that bounds it. A Word is a
mathematical integer: the instruction set has no bitwise operation, no shift and no sub-word access, so
its bits are observable by no rule (R2). Its Lean type is `Int`; that it lies in the range of R2 is `Width.holds`,
and that every Word of a running engine does is the invariant of 10_state.md R24. Log entry 1. -/

namespace Sys2Proof

/-- The parameter `W` of 00_scope.md R2: a number of bits, or `W = infinity`. -/
inductive Width where
  /-- Words of `w` bits: `WORD_MIN = -(2^(w-1))`, `WORD_MAX = 2^(w-1) - 1`. -/
  | bits (w : Nat)
  /-- Mathematical integers: every overflow condition is false. -/
  | unbounded
  deriving DecidableEq, Repr

/-- `inrange(v)` of 00_scope.md section 6.1: `WORD_MIN <= v <= WORD_MAX`. -/
def Width.holds : Width → Int → Bool
  | .bits w, v => decide (-Int.ofNat (2 ^ (w - 1)) ≤ v) && decide (v ≤ Int.ofNat (2 ^ (w - 1)) - 1)
  | .unbounded, _ => true

/-- The widths 00_scope.md R2 admits: `W >= 64`, or infinity. -/
def Width.admitted : Width → Bool
  | .bits w => decide (64 ≤ w)
  | .unbounded => true

end Sys2Proof
end

