-- ==== Sys2Proof/Config.lean ====
section
/-! DEFINITION. The parameters of 00_scope.md R3 that the model fixes. `NREG = 0` and `MAXPARAM = 3` are the
shapes of `State` and `Instr`; `QDEPTH_IN` and `QDEPTH_OUT` are unbounded (the queues are lists); `ADDR_MAX` is
`WORD_MAX`, so an address is legal exactly when it is non-negative and a Word; `HALTED_STEP = noop` is
`Machine.State.runs`. The spec leaves no value free, so there is no free value here. -/

namespace Sys2Proof

/-- The width of the engine that `Machine.exec` and `Machine.step` describe: the default `W = 64` of
00_scope.md R2, R3. Every operation below takes the width as an argument. DESIGN CHOICE, log entry 1. -/
def Config.width : Width := .bits 64

/-- How many bits the host's numbering of an instruction gives one cell (`decodeTableWord`). The spec numbers
no bits; nothing but the host's two hooks uses this. DESIGN CHOICE, log entry 7. -/
def Config.tableCellBits : Nat := 64

end Sys2Proof
end

