-- ==== Sys2Proof/Syntax.lean ====
section
/-! DEFINITION. The instructions of spec/opcode_table.json as data: one constructor per row, each parameter
with its mode and the Word of its cell (20_memory.md R34, R40; 30_encoding.md R53). -/

namespace Sys2Proof

/-- A source parameter: its mode and the Word in its cell (20_memory.md R34, R35). -/
inductive Source where
  /-- Mode 0: the parameter is the address of the operand. -/
  | position (p : Int)
  /-- Mode 1: the parameter is the operand. -/
  | immediate (p : Int)
  /-- Mode 2: the parameter added to `rb` is the address of the operand. -/
  | relative (p : Int)
  deriving DecidableEq, Repr

/-- A write target: mode 1 is illegal for it (20_memory.md R34, R39), so it has no such form. -/
inductive Target where
  /-- Mode 0: the parameter is the address written. -/
  | position (p : Int)
  /-- Mode 2: the parameter added to `rb` is the address written. -/
  | relative (p : Int)
  deriving DecidableEq, Repr

/-- The ten instructions (30_encoding.md R53), parameters in cell order. -/
inductive Instr where
  /-- `ADD a, b, d` (R70). -/
  | add (a b : Source) (d : Target)
  /-- `MUL a, b, d` (R71). -/
  | mul (a b : Source) (d : Target)
  /-- `IN d` (R75). -/
  | inp (d : Target)
  /-- `OUT a` (R76). -/
  | out (a : Source)
  /-- `JT a, t` (R80). -/
  | jt (a t : Source)
  /-- `JF a, t` (R81). -/
  | jf (a t : Source)
  /-- `LT a, b, d` (R85). -/
  | lt (a b : Source) (d : Target)
  /-- `EQ a, b, d` (R86). -/
  | eq (a b : Source) (d : Target)
  /-- `ARB a` (R90). -/
  | arb (a : Source)
  /-- `HLT` (R91). -/
  | hlt
  deriving DecidableEq, Repr

/-- The Word in a source parameter's cell. -/
def Source.param : Source → Int
  | .position p => p
  | .immediate p => p
  | .relative p => p

/-- The Word in a write target's cell. -/
def Target.param : Target → Int
  | .position p => p
  | .relative p => p

/-- The parameter cells of an instruction, in order (30_encoding.md R50). -/
def Instr.params : Instr → List Int
  | .add a b d => [a.param, b.param, d.param]
  | .mul a b d => [a.param, b.param, d.param]
  | .inp d => [d.param]
  | .out a => [a.param]
  | .jt a t => [a.param, t.param]
  | .jf a t => [a.param, t.param]
  | .lt a b d => [a.param, b.param, d.param]
  | .eq a b d => [a.param, b.param, d.param]
  | .arb a => [a.param]
  | .hlt => []

/-- The length in cells: the instruction word and its parameters (30_encoding.md R62). -/
def Instr.length (i : Instr) : Nat := i.params.length + 1

end Sys2Proof
end

