-- ==== Sys2Proof/Decode.lean ====
section
/-! DEFINITION. The decoder: the instruction word unpacked by decimal digits (30_encoding.md R51), the decode
tests in their order (R54, R57 to R60), the parameters put together with their modes (R63); then the encoder
(R66). The digit next to the opcode is the mode of parameter 1 (90_conflicts.md C1). -/

namespace Sys2Proof

/-- The ten opcodes, before modes and parameters (30_encoding.md R53). -/
inductive Opcode where
  | add | mul | inp | out | jt | jf | lt | eq | arb | hlt
  deriving DecidableEq, Repr

/-- The three modes of 20_memory.md R34. -/
inductive Mode where
  | position | immediate | relative
  deriving DecidableEq, Repr

/-- Why an instruction word is refused, with the word (30_encoding.md R57 to R60). -/
inductive DecodeError where
  /-- The word is negative or its two low digits select no instruction (R57). -/
  | illegalOpcode (I : Int)
  /-- A mode digit is 3 to 9 (R58), or a reserved digit is not 0 (R60). -/
  | illegalMode (I : Int)
  /-- The write target has mode 1 (R59). -/
  | invalidWriteTarget (I : Int)
  deriving DecidableEq, Repr

/-- `digit(v, k)` of 00_scope.md section 6.1, for a non-negative `v`. -/
def digit (v k : Nat) : Nat := v / 10 ^ k % 10

/-- The opcode map (30_encoding.md R53): the value of the two low digits to its instruction. -/
def Opcode.ofNat? : Nat → Option Opcode
  | 1 => some .add
  | 2 => some .mul
  | 3 => some .inp
  | 4 => some .out
  | 5 => some .jt
  | 6 => some .jf
  | 7 => some .lt
  | 8 => some .eq
  | 9 => some .arb
  | 99 => some .hlt
  | _ => none

/-- The value of an opcode's two digits (30_encoding.md R53). -/
def Opcode.code : Opcode → Nat
  | .add => 1
  | .mul => 2
  | .inp => 3
  | .out => 4
  | .jt => 5
  | .jf => 6
  | .lt => 7
  | .eq => 8
  | .arb => 9
  | .hlt => 99

/-- `n`, the number of parameters (30_encoding.md R52, R53). -/
def Opcode.paramCount : Opcode → Nat
  | .add => 3
  | .mul => 3
  | .inp => 1
  | .out => 1
  | .jt => 2
  | .jf => 2
  | .lt => 3
  | .eq => 3
  | .arb => 1
  | .hlt => 0

/-- Which parameter, if any, is the write target (20_memory.md R40). -/
def Opcode.target? : Opcode → Option Nat
  | .add => some 3
  | .mul => some 3
  | .inp => some 1
  | .out => none
  | .jt => none
  | .jf => none
  | .lt => some 3
  | .eq => some 3
  | .arb => none
  | .hlt => none

/-- The mode a legal mode digit stands for; the digits 3 to 9 are refused before it is asked
(30_encoding.md R58). -/
def Mode.ofDigit : Nat → Mode
  | 0 => .position
  | 1 => .immediate
  | _ => .relative

/-- The mode digit `mode[k]` of an instruction word (30_encoding.md R51). -/
def modeDigit (v k : Nat) : Nat := digit v (k + 1)

/-- The reserved digits `d5` and above (30_encoding.md R51). -/
def highDigits (v : Nat) : Nat := v / 100000

/-- What an instruction word decodes to, before its parameters are fetched: the opcode and the three modes
(30_encoding.md R54: both are known before dispatch). -/
structure Head where
  op : Opcode
  mode1 : Mode
  mode2 : Mode
  mode3 : Mode
  deriving DecidableEq, Repr

/-- A mode digit of a parameter the instruction has is 3 to 9 (30_encoding.md R58). -/
def hasIllegalMode (op : Opcode) (v : Nat) : Bool :=
  [1, 2, 3].any fun k => decide (k ≤ op.paramCount) && decide (2 < modeDigit v k)

/-- A digit that must be 0 is not: the mode digit of a parameter the instruction lacks, or a digit from `d5`
upward (30_encoding.md R60). -/
def hasReservedDigit (op : Opcode) (v : Nat) : Bool :=
  ([1, 2, 3].any fun k => decide (op.paramCount < k) && decide (modeDigit v k ≠ 0)) ||
    decide (highDigits v ≠ 0)

/-- The write target has mode 1 (30_encoding.md R59). -/
def hasImmediateTarget (op : Opcode) (v : Nat) : Bool :=
  match op.target? with
  | some k => decide (modeDigit v k = 1)
  | none => false

/-- The decode part of 30_encoding.md R54, with its tests in the order of 60_exceptions.md R109 (orders 2
to 5). It depends on the instruction word alone. -/
def decodeHead (I : Int) : Except DecodeError Head :=
  if I < 0 then .error (.illegalOpcode I)
  else
    match Opcode.ofNat? (I.toNat % 100) with
    | none => .error (.illegalOpcode I)
    | some op =>
      if hasIllegalMode op I.toNat then .error (.illegalMode I)
      else if hasReservedDigit op I.toNat then .error (.illegalMode I)
      else if hasImmediateTarget op I.toNat then .error (.invalidWriteTarget I)
      else .ok ⟨op, Mode.ofDigit (modeDigit I.toNat 1), Mode.ofDigit (modeDigit I.toNat 2),
        Mode.ofDigit (modeDigit I.toNat 3)⟩

/-- A source parameter from its mode and its cell. -/
def Source.make : Mode → Int → Source
  | .position, p => .position p
  | .immediate, p => .immediate p
  | .relative, p => .relative p

/-- A write target from its mode and its cell; mode 1 is refused before it is asked (30_encoding.md R59). -/
def Target.make : Mode → Int → Target
  | .position, p => .position p
  | .immediate, p => .position p
  | .relative, p => .relative p

/-- The instruction of a decoded word and its parameter cells (30_encoding.md R63: each operand is one whole
cell, used according to its mode). -/
def assemble (h : Head) (ps : List Int) : Instr :=
  let p1 := ps.getD 0 0
  let p2 := ps.getD 1 0
  let p3 := ps.getD 2 0
  match h.op with
  | .add => .add (.make h.mode1 p1) (.make h.mode2 p2) (.make h.mode3 p3)
  | .mul => .mul (.make h.mode1 p1) (.make h.mode2 p2) (.make h.mode3 p3)
  | .inp => .inp (.make h.mode1 p1)
  | .out => .out (.make h.mode1 p1)
  | .jt => .jt (.make h.mode1 p1) (.make h.mode2 p2)
  | .jf => .jf (.make h.mode1 p1) (.make h.mode2 p2)
  | .lt => .lt (.make h.mode1 p1) (.make h.mode2 p2) (.make h.mode3 p3)
  | .eq => .eq (.make h.mode1 p1) (.make h.mode2 p2) (.make h.mode3 p3)
  | .arb => .arb (.make h.mode1 p1)
  | .hlt => .hlt

/-- The decoder on a list of cells, total: the instruction at its front and the cells after it, or the
name of the refusal. A cell the list does not have reads 0, as memory beyond a program does (20_memory.md
R32). DESIGN CHOICE, log entry 11. -/
def decode (cells : List Int) : Except DecodeError (Instr × List Int) :=
  match decodeHead (cells.getD 0 0) with
  | .error e => .error e
  | .ok h => .ok (assemble h (cells.drop 1), cells.drop (h.op.paramCount + 1))

/-- The mode digit of a source parameter (20_memory.md R34). -/
def Source.modeCode : Source → Nat
  | .position _ => 0
  | .immediate _ => 1
  | .relative _ => 2

/-- The mode digit of a write target (20_memory.md R34). -/
def Target.modeCode : Target → Nat
  | .position _ => 0
  | .relative _ => 2

/-- The instruction word `opcode + 100*m1 + 1000*m2 + 10000*m3` (30_encoding.md R66). -/
def headWord (opcode m1 m2 m3 : Nat) : Int :=
  Int.ofNat (opcode + 100 * m1 + 1000 * m2 + 10000 * m3)

/-- The instruction word of an instruction (30_encoding.md R53, R66). -/
def Instr.headWord : Instr → Int
  | .add a b d => Sys2Proof.headWord 1 a.modeCode b.modeCode d.modeCode
  | .mul a b d => Sys2Proof.headWord 2 a.modeCode b.modeCode d.modeCode
  | .inp d => Sys2Proof.headWord 3 d.modeCode 0 0
  | .out a => Sys2Proof.headWord 4 a.modeCode 0 0
  | .jt a t => Sys2Proof.headWord 5 a.modeCode t.modeCode 0
  | .jf a t => Sys2Proof.headWord 6 a.modeCode t.modeCode 0
  | .lt a b d => Sys2Proof.headWord 7 a.modeCode b.modeCode d.modeCode
  | .eq a b d => Sys2Proof.headWord 8 a.modeCode b.modeCode d.modeCode
  | .arb a => Sys2Proof.headWord 9 a.modeCode 0 0
  | .hlt => Sys2Proof.headWord 99 0 0 0

/-- The cells of an instruction: its word, then its parameters (30_encoding.md R50, R66). -/
def encode (i : Instr) : List Int := i.headWord :: i.params

/-- The host's numbering of an instruction's bits made into cells: cell `k` is the bits `64k+63 .. 64k` of
`w` below `nbits`, read as two's complement. The spec numbers no bits and gives a Word no representation (00_scope.md
R2, section 6.1); nothing but the host's two hooks uses this. DESIGN CHOICE, log entry 7. -/
def tableCell (nbits w k : Nat) : Int :=
  let v := w % 2 ^ nbits / 2 ^ (Config.tableCellBits * k) % 2 ^ Config.tableCellBits
  if v < 2 ^ (Config.tableCellBits - 1) then Int.ofNat v else Int.ofNat v - Int.ofNat (2 ^ Config.tableCellBits)

/-- The four cells of the longest instruction, from the host's numbering. -/
def tableCells (nbits w : Nat) : List Int := [0, 1, 2, 3].map (tableCell nbits w)

/-- The instruction the decoder reads from the host's numbering of it. -/
def decodeTableWord (nbits w : Nat) : Option Instr :=
  match decode (tableCells nbits w) with
  | .ok (i, _) => some i
  | .error _ => none

end Sys2Proof
end

