-- ==== Sys2Proof/Machine/State.lean ====
section
/-! DEFINITION. The state of one engine: the seven items of 10_state.md section 1 and no other (R27); the
reasons a step can stop; and the state after reset. -/

namespace Sys2Proof.Machine

/-- How the last step ended (10_state.md R14, R15). -/
inductive Status where
  /-- The last step completed an instruction that neither halted, suspended nor put out a value. -/
  | ready
  /-- The last step found an `IN` at `pc` and `inq` empty. -/
  | suspendedAwaitingInput
  /-- The last step executed an `OUT`. -/
  | suspendedAfterOutput
  /-- The last instruction executed was `HLT`; terminal. -/
  | halted
  deriving DecidableEq, Repr

/-- The five fault causes (60_exceptions.md R100). Code 6, `HaltedEngine`, is reserved and never raised
(R117), so it is no cause here. -/
inductive FaultCause where
  /-- The instruction word is negative or has no opcode of the map (R101). -/
  | illegalOpcode
  /-- A mode digit is 3 to 9, or a reserved digit is not 0 (R102). -/
  | illegalMode
  /-- The write target has mode 1 (R103). -/
  | invalidWriteTarget
  /-- An address to be read or written is negative (R104). -/
  | negativeAddress
  /-- A computed Word is outside the Word range (R105). -/
  | arithmeticOverflow
  deriving DecidableEq, Repr

/-- What the fault latch holds when it holds a fault: the cause and the Word `info` (10_state.md R16,
60_exceptions.md R106). -/
structure FaultRecord where
  cause : FaultCause
  info : Int
  deriving DecidableEq, Repr

/-- The cells of memory that do not hold 0, as pairs of address and Word with rising addresses (10_state.md
R17). The unit is the cell and not the byte: 20_memory.md R41. Log entry 2. -/
abbrev Memory := List (Nat × Int)

/-- The state of one engine (10_state.md section 1). -/
structure State where
  /-- Program counter (R11). It may be negative after a jump. -/
  pc : Int
  /-- Relative base register (R13). It may be negative. -/
  rb : Int
  /-- How the last step ended (R14). -/
  status : Status
  /-- The fault latch: `none` is `NONE` (R16). -/
  fault : Option FaultRecord
  /-- Memory (R17). -/
  mem : Memory
  /-- Input queue, head first (R19, R20). -/
  inq : List Int
  /-- Output queue, head first (R19, R21). -/
  outq : List Int
  deriving DecidableEq, Repr

/-- The state after a reset with the empty program image (10_state.md R23, 70_reset_and_hazards.md R130,
R133). `State.load` is the reset with an image. Log entry 4. -/
def State.reset : State where
  pc := 0
  rb := 0
  status := .ready
  fault := none
  mem := []
  inq := []
  outq := []

/-- Reasons for a step to stop without a next state: there are none, so the type has no constructor. The
spec's own faults change the fault latch and nothing else (60_exceptions.md R107), which is a next state; the
spec has no behaviour it leaves without an effect. Nobody raises it: safe. Log entry 5. -/
inductive Fault where
  deriving DecidableEq, Repr

/-- Reasons for refusing without a next state. No instruction and no step refuses. -/
inductive Refusal where
  /-- Kept for `exec`'s arms by the host's form. Every arm has its meaning, so nobody raises it: safe. -/
  | notModelled (mnemonic : String)
  /-- Raised by the host interface for every command but `RESET` before the first `RESET`
  (70_reset_and_hazards.md R134: no such command has a defined effect). Safe. Log entry 9. -/
  | beforeReset
  /-- Raised by the host interface for an input value, a program image or a peeked address above `ADDR_MAX` that does not
  fit the ports (60_exceptions.md R118, 70_reset_and_hazards.md R132: it cannot be presented). Safe. Log entries 3 and 10. -/
  | notPresentable
  deriving DecidableEq, Repr

end Sys2Proof.Machine
end

