-- ==== Sys2Proof/Machine/Ops.lean ====
section
/-! DEFINITION. The named operations over memory and registers: reading and writing a cell, the two checks
every address and every computed Word goes through, taking a fault, and when the engine runs at all. There is
no return from a fault to stand beside its entry (60_exceptions.md R110). -/

namespace Sys2Proof.Machine

/-! ### Memory (10_state.md R17, 20_memory.md R30 to R33) -/

/-- `Mem[a]`: 0 where nothing is listed (20_memory.md R32). -/
def Memory.read : Memory → Nat → Int
  | [], _ => 0
  | (b, u) :: m, a => if a = b then u else Memory.read m a

/-- `Mem[a] <- v` and no other cell (20_memory.md R33), in canonical form: writing 0 removes the entry. -/
def Memory.write : Memory → Nat → Int → Memory
  | [], a, v => if v = 0 then [] else [(a, v)]
  | (b, u) :: m, a, v =>
    if a < b then (if v = 0 then (b, u) :: m else (a, v) :: (b, u) :: m)
    else if a = b then (if v = 0 then m else (a, v) :: m)
    else (b, u) :: Memory.write m a v

/-- The entries stand at or above address `lo`, rise strictly, and none is 0. -/
def Memory.wfFrom : Nat → Memory → Bool
  | _, [] => true
  | lo, (a, v) :: m => decide (lo ≤ a) && decide (v ≠ 0) && Memory.wfFrom (a + 1) m

/-- The canonical form: addresses strictly rising, no entry equal to what an unlisted cell reads as. -/
def Memory.wf (m : Memory) : Bool := Memory.wfFrom 0 m

/-- The memory that holds the Words of an image from address `a` on and 0 elsewhere. -/
def Memory.imageFrom : Nat → List Int → Memory
  | _, [] => []
  | a, v :: vs => if v = 0 then Memory.imageFrom (a + 1) vs else (a, v) :: Memory.imageFrom (a + 1) vs

/-- Write the Words of a list from address `a` on. -/
def Memory.writeAll : Memory → Nat → List Int → Memory
  | m, _, [] => m
  | m, a, v :: vs => Memory.writeAll (m.write a v) (a + 1) vs

/-- `RESET(P)`: the program image at `0 .. len-1`, 0 elsewhere, every other item at its reset value
(70_reset_and_hazards.md R130; 10_state.md R23). -/
def State.load (image : List Int) : State :=
  { State.reset with mem := Memory.imageFrom 0 image }

/-! ### The checks -/

/-- `checked(v)`: `v`, or `ArithmeticOverflow(0)` when it is outside the Word range (00_scope.md R5,
60_exceptions.md R105). -/
def checked (w : Width) (v : Int) : Except FaultRecord Int :=
  if w.holds v then .ok v else .error ⟨.arithmeticOverflow, 0⟩

/-- The address check of `MemRead` and `MemWrite`: a negative address raises `NegativeAddress(a)`
(20_memory.md R32, R33; 60_exceptions.md R104). It is the only address check (R48). -/
def address (a : Int) : Except FaultRecord Nat :=
  if a < 0 then .error ⟨.negativeAddress, a⟩ else .ok a.toNat

/-- `MemRead(addr, 1)` (20_memory.md R32). -/
def memRead (m : Memory) (a : Int) : Except FaultRecord Int := do
  let n ← address a
  return m.read n

/-- `MemWrite(addr, 1, v)` (20_memory.md R33). -/
def memWrite (m : Memory) (a v : Int) : Except FaultRecord Memory := do
  let n ← address a
  return m.write n v

/-! ### Faults (60_exceptions.md R107) -/

/-- Taking a fault: the latch is set and nothing else changes (60_exceptions.md R107, 10_state.md R16). -/
def State.takeFault (s : State) (f : FaultRecord) : State := { s with fault := some f }

/-- The end of an instruction: its committed state, or the fault its check phase raised, taken in the state
before it (60_exceptions.md R107). -/
def State.settle (s : State) : Except FaultRecord State → Host.Outcome State Fault Refusal
  | .ok t => .next t
  | .error f => .next (s.takeFault f)

/-- The engine executes an instruction at a step exactly when no fault is latched and it is not halted
(60_exceptions.md R108, R116, R117; `HALTED_STEP = noop`). -/
def State.runs (s : State) : Bool := s.fault.isNone && decide (s.status ≠ .halted)

/-! ### Numeric codes (10_state.md R14, 60_exceptions.md R100) -/

/-- The code of a status (10_state.md R14). -/
def Status.code : Status → Nat
  | .ready => 0
  | .suspendedAwaitingInput => 1
  | .suspendedAfterOutput => 2
  | .halted => 3

/-- The code of a cause (60_exceptions.md R100). -/
def FaultCause.code : FaultCause → Nat
  | .illegalOpcode => 1
  | .illegalMode => 2
  | .invalidWriteTarget => 3
  | .negativeAddress => 4
  | .arithmeticOverflow => 5

/-- The code the fault latch shows: 0 for `NONE` (60_exceptions.md R100). -/
def faultCode : Option FaultRecord → Nat
  | none => 0
  | some f => f.cause.code

end Sys2Proof.Machine
end

