-- ==== Sys2Proof/Machine/Operands.lean ====
section
/-! DEFINITION. The addressing-mode resolver (20_memory.md R34 to R39) and the instruction shape that ADD, MUL,
LT and EQ share. Resolving a parameter reads the state before the instruction and changes nothing (R36, R37). -/

namespace Sys2Proof.Machine

/-- `EffAddr(k)` in relative mode: `rb + p`, range-checked, then the address check (20_memory.md R36). -/
def relativeAddress (w : Width) (s : State) (p : Int) : Except FaultRecord Nat := do
  let a ← checked w (s.rb + p)
  address a

/-- `ReadOperand(k)` (20_memory.md R38). -/
def readOperand (w : Width) (s : State) : Source → Except FaultRecord Int
  | .position p => memRead s.mem p
  | .immediate p => .ok p
  | .relative p => do
    let n ← relativeAddress w s p
    return s.mem.read n

/-- `WriteTarget(k)`: the address, not dereferenced (20_memory.md R39). -/
def writeTarget (w : Width) (s : State) : Target → Except FaultRecord Nat
  | .position p => address p
  | .relative p => relativeAddress w s p

/-- `checked(pc + n)`, the advanced program counter (10_state.md R12). -/
def advance (w : Width) (s : State) (n : Nat) : Except FaultRecord Int := checked w (s.pc + Int.ofNat n)

/-- The shape of ADD, MUL, LT and EQ: operand 1, operand 2, the target, the result `f x y`, the advance by 4;
then the one write (40_arithmetic.md R70, 20_memory.md R44). -/
def storeResult (w : Width) (f : Int → Int → Except FaultRecord Int) (a b : Source) (d : Target)
    (s : State) : Except FaultRecord State := do
  let x ← readOperand w s a
  let y ← readOperand w s b
  let t ← writeTarget w s d
  let r ← f x y
  let np ← advance w s 4
  return { s with mem := s.mem.write t r, pc := np, status := .ready }

/-- The shape of JT and JF: operand 1, operand 2, the advance by 3; then operand 2 is the new `pc`, unchecked,
when the test on operand 1 holds (42_jumps.md R80, R81). -/
def jumpWhen (w : Width) (test : Int → Bool) (a t : Source) (s : State) : Except FaultRecord State := do
  let x ← readOperand w s a
  let y ← readOperand w s t
  let np ← advance w s 3
  return { s with pc := if test x then y else np, status := .ready }

end Sys2Proof.Machine
end

