-- ==== Sys2Proof/Machine/Arithmetic.lean ====
section
/-! DEFINITION. ADD and MUL (40_arithmetic.md R70 to R72): the exact sum or product, range-checked, never
wrapped. Each has its effect at any width and its meaning at the width of `Config`. -/

namespace Sys2Proof.Machine

/-- ADD's check and commit phases (40_arithmetic.md R70). -/
def addEffect (w : Width) (a b : Source) (d : Target) (s : State) : Except FaultRecord State :=
  storeResult w (fun x y => checked w (x + y)) a b d s

/-- MUL's check and commit phases (40_arithmetic.md R71). -/
def mulEffect (w : Width) (a b : Source) (d : Target) (s : State) : Except FaultRecord State :=
  storeResult w (fun x y => checked w (x * y)) a b d s

/-- `ADD a, b, d` (40_arithmetic.md R70). -/
def execAdd (a b : Source) (d : Target) (s : State) : Host.Outcome State Fault Refusal :=
  s.settle (addEffect Config.width a b d s)

/-- `MUL a, b, d` (40_arithmetic.md R71). -/
def execMul (a b : Source) (d : Target) (s : State) : Host.Outcome State Fault Refusal :=
  s.settle (mulEffect Config.width a b d s)

end Sys2Proof.Machine
end

