-- ==== Sys2Proof/Machine/Flags.lean ====
section
/-! DEFINITION. The engine has no flags, condition codes or predicates (10_state.md R25). What stands in their
place: the Word 0 or 1 a comparison stores (43_compare.md R87) and the test a jump makes against 0
(42_jumps.md R80, R81). -/

namespace Sys2Proof.Machine

/-- The Word 1 or 0 a comparison stores (43_compare.md R87). -/
def truthWord (b : Bool) : Int := if b then 1 else 0

/-- `x < y`, signed, on mathematical integers (43_compare.md R85, R87). -/
def isLess (x y : Int) : Bool := decide (x < y)

/-- `x = y`, equality of integer values (43_compare.md R86). -/
def isEqual (x y : Int) : Bool := decide (x = y)

/-- The condition of JT: true is any non-zero Word (42_jumps.md R80). -/
def isNonZero (x : Int) : Bool := decide (x ≠ 0)

/-- The condition of JF (42_jumps.md R81). -/
def isZero (x : Int) : Bool := decide (x = 0)

end Sys2Proof.Machine
end

