-- ==== Sys2Proof/Machine/Compare.lean ====
section
/-! DEFINITION. LT and EQ (43_compare.md R85 to R87): a signed comparison of mathematical integers that cannot
overflow, its result the Word 1 or 0 in memory. -/

namespace Sys2Proof.Machine

/-- LT's check and commit phases (43_compare.md R85). -/
def ltEffect (w : Width) (a b : Source) (d : Target) (s : State) : Except FaultRecord State :=
  storeResult w (fun x y => .ok (truthWord (isLess x y))) a b d s

/-- EQ's check and commit phases (43_compare.md R86). -/
def eqEffect (w : Width) (a b : Source) (d : Target) (s : State) : Except FaultRecord State :=
  storeResult w (fun x y => .ok (truthWord (isEqual x y))) a b d s

/-- `LT a, b, d` (43_compare.md R85). -/
def execLt (a b : Source) (d : Target) (s : State) : Host.Outcome State Fault Refusal :=
  s.settle (ltEffect Config.width a b d s)

/-- `EQ a, b, d` (43_compare.md R86). -/
def execEq (a b : Source) (d : Target) (s : State) : Host.Outcome State Fault Refusal :=
  s.settle (eqEffect Config.width a b d s)

end Sys2Proof.Machine
end

