-- ==== Sys2Proof/Machine/Control.lean ====
section
/-! DEFINITION. ARB and HLT (44_relbase_halt.md R90 to R92). -/

namespace Sys2Proof.Machine

/-- ARB's check and commit phases: the operand is resolved with the old `rb` and added to it
(44_relbase_halt.md R90). -/
def arbEffect (w : Width) (a : Source) (s : State) : Except FaultRecord State := do
  let x ← readOperand w s a
  let r ← checked w (s.rb + x)
  let np ← advance w s 2
  return { s with rb := r, pc := np, status := .ready }

/-- HLT has no check phase; it writes `status` alone (44_relbase_halt.md R91). -/
def hltEffect (s : State) : Except FaultRecord State := .ok { s with status := .halted }

/-- `ARB a` (44_relbase_halt.md R90). -/
def execArb (a : Source) (s : State) : Host.Outcome State Fault Refusal :=
  s.settle (arbEffect Config.width a s)

/-- `HLT` (44_relbase_halt.md R91). -/
def execHlt (s : State) : Host.Outcome State Fault Refusal :=
  s.settle (hltEffect s)

end Sys2Proof.Machine
end

