-- ==== Sys2Proof/Machine/InputOutput.lean ====
section
/-! DEFINITION. IN and OUT (41_io.md R75, R76): the engine's only contact with its environment. -/

namespace Sys2Proof.Machine

/-- IN's check and commit phases (41_io.md R75): every test comes before the look at `inq`. -/
def inpEffect (w : Width) (d : Target) (s : State) : Except FaultRecord State := do
  let t ← writeTarget w s d
  let np ← advance w s 2
  match s.inq with
  | [] => return { s with status := .suspendedAwaitingInput }
  | v :: rest => return { s with mem := s.mem.write t v, inq := rest, pc := np, status := .ready }

/-- OUT's check and commit phases (41_io.md R76). -/
def outEffect (w : Width) (a : Source) (s : State) : Except FaultRecord State := do
  let x ← readOperand w s a
  let np ← advance w s 2
  return { s with outq := s.outq ++ [x], pc := np, status := .suspendedAfterOutput }

/-- `IN d` (41_io.md R75). -/
def execInp (d : Target) (s : State) : Host.Outcome State Fault Refusal :=
  s.settle (inpEffect Config.width d s)

/-- `OUT a` (41_io.md R76). -/
def execOut (a : Source) (s : State) : Host.Outcome State Fault Refusal :=
  s.settle (outEffect Config.width a s)

end Sys2Proof.Machine
end

