-- ==== Sys2Proof/Machine/Jumps.lean ====
section
/-! DEFINITION. JT and JF (42_jumps.md R80 to R82): both operands are resolved and `pc + 3` is checked whether or
not the jump is taken; the target is written to `pc` unchecked. -/

namespace Sys2Proof.Machine

/-- JT's check and commit phases (42_jumps.md R80). -/
def jtEffect (w : Width) (a t : Source) (s : State) : Except FaultRecord State :=
  jumpWhen w isNonZero a t s

/-- JF's check and commit phases (42_jumps.md R81). -/
def jfEffect (w : Width) (a t : Source) (s : State) : Except FaultRecord State :=
  jumpWhen w isZero a t s

/-- `JT a, t` (42_jumps.md R80). -/
def execJt (a t : Source) (s : State) : Host.Outcome State Fault Refusal :=
  s.settle (jtEffect Config.width a t s)

/-- `JF a, t` (42_jumps.md R81). -/
def execJf (a t : Source) (s : State) : Host.Outcome State Fault Refusal :=
  s.settle (jfEffect Config.width a t s)

end Sys2Proof.Machine
end

