-- ==== Sys2Proof/Machine/Fetch.lean ====
section
/-! DEFINITION. Fetch and decode of one step from memory (30_encoding.md R54 to R56), and the cells the host's
hook places for it. -/

namespace Sys2Proof.Machine

/-- The fault a refused instruction word raises, with the word as `info` (60_exceptions.md R101 to R103,
R106). -/
def decodeFault : DecodeError → FaultRecord
  | .illegalOpcode I => ⟨.illegalOpcode, I⟩
  | .illegalMode I => ⟨.illegalMode, I⟩
  | .invalidWriteTarget I => ⟨.invalidWriteTarget, I⟩

/-- The decode of an instruction word, its refusal as a fault (30_encoding.md R54). -/
def decodeWord (I : Int) : Except FaultRecord Head :=
  match decodeHead I with
  | .ok h => .ok h
  | .error e => .error (decodeFault e)

/-- Parameter fetch: `n` cells from `pc + k` on, `pc + k` range-checked, in ascending order
(30_encoding.md R56). -/
def fetchParams (w : Width) (s : State) : Nat → Nat → Except FaultRecord (List Int)
  | 0, _ => .ok []
  | n + 1, k => do
    let a ← checked w (s.pc + Int.ofNat k)
    let v ← memRead s.mem a
    let vs ← fetchParams w s n (k + 1)
    return v :: vs

/-- Fetch and decode: the instruction at `pc`, or the fault (30_encoding.md R54, R55, R56). Exactly the
parameters of the decoded opcode are read. -/
def fetch (w : Width) (s : State) : Except FaultRecord Instr := do
  let I ← memRead s.mem s.pc
  let h ← decodeWord I
  let ps ← fetchParams w s h.op.paramCount 1
  return assemble h ps

/-- The cells of memory from address `a` on, `n` of them. -/
def Memory.cells (m : Memory) : Nat → Nat → List Int
  | _, 0 => []
  | a, n + 1 => m.read a :: Memory.cells m (a + 1) n

/-- Where the host's hook places an instruction: at `pc`, or at 0 when the four cells of the longest
instruction do not fit the address space there. -/
def State.placeAt (s : State) : Int :=
  if decide (0 ≤ s.pc) && Config.width.holds (s.pc + 4) then s.pc else 0

/-- `s` with the given cells where the next step fetches, and with the engine able to run: no fault latched,
not halted. Log entry 4. -/
def State.withCells (s : State) (cells : List Int) : State :=
  { s with
    pc := s.placeAt
    status := if s.status = .halted then .ready else s.status
    fault := none
    mem := s.mem.writeAll s.placeAt.toNat cells }

end Sys2Proof.Machine
end

