-- ==== Sys2Proof/Machine/Step.lean ====
section
/-! DEFINITION. One step: the host command STEP (60_exceptions.md R116) over the Step of 30_encoding.md R54. -/

namespace Sys2Proof.Machine

/-- One step of the engine. A faulted or halted engine does nothing (60_exceptions.md R108, R117); otherwise the
instruction at `pc` is fetched, decoded and executed, and a fault on the way is taken (R107). -/
def step (s : State) : Host.Outcome State Fault Refusal :=
  if s.runs then
    match fetch Config.width s with
    | .ok i => exec i s
    | .error f => .next (s.takeFault f)
  else .next s

/-- The host's hook: `s` with the instruction of the numbered word where the next step fetches it. -/
def State.withFetchWord (s : State) (nbits w : Nat) : State := s.withCells (tableCells nbits w)

end Sys2Proof.Machine
end

