-- ==== Sys2Proof/Machine/Commands.lean ====
section
/-! DEFINITION. The host side of the engine: the commands of 60_exceptions.md R115. Each happens between
steps (00_scope.md R4, 70_reset_and_hazards.md R136). -/

namespace Sys2Proof.Machine

/-- The commands of 60_exceptions.md R115. -/
inductive Command where
  | reset (image : List Int)
  | pushInput (v : Int)
  | step
  | run
  | runUntilOutput
  | consumeOutput
  | hasOutput
  | peek (a : Int)
  | getStatus
  | getPc
  | getRb
  | getFault
  deriving DecidableEq, Repr

/-- The failures of a host command; they change no engine state (60_exceptions.md R113). -/
inductive HostError where
  /-- `CONSUME_OUTPUT` with `outq` empty. -/
  | emptyOutput
  /-- `PEEK(a)` with `a < 0`. -/
  | negativeAddress
  deriving DecidableEq, Repr

/-- What a command returns to the host. -/
inductive Reply where
  /-- The command has no result. -/
  | done
  /-- `(status, fault)` as it stands when a run command returns (60_exceptions.md R115). -/
  | ended (status : Status) (fault : Option FaultRecord)
  | word (v : Int)
  | flag (b : Bool)
  | status (st : Status)
  | fault (f : Option FaultRecord)
  | failed (e : HostError)
  deriving DecidableEq, Repr

/-! ### The commands that are not run commands -/

/-- `PUSH_INPUT(v)`: append to `inq` and change nothing else (60_exceptions.md R118). -/
def State.pushInput (s : State) (v : Int) : State := { s with inq := s.inq ++ [v] }

/-- `CONSUME_OUTPUT`: the oldest value of `outq`, removed, or the host error `EmptyOutput`
(60_exceptions.md R119). -/
def State.consumeOutput (s : State) : Except HostError (Int × State) :=
  match s.outq with
  | [] => .error .emptyOutput
  | v :: rest => .ok (v, { s with outq := rest })

/-- `HAS_OUTPUT` (60_exceptions.md R120). -/
def State.hasOutput (s : State) : Bool := !s.outq.isEmpty

/-- `PEEK(a)` (60_exceptions.md R122). -/
def State.peek (s : State) (a : Int) : Except HostError Int :=
  if a < 0 then .error .negativeAddress else .ok (s.mem.read a.toNat)

/-- What the load port can present: an image of Words that fits the address space
(70_reset_and_hazards.md R132: `len <= ADDR_MAX + 1`). -/
def imageFits (w : Width) (image : List Int) : Bool :=
  image.all w.holds && w.holds (Int.ofNat image.length - 1)

/-! ### The run commands -/

/-- `RUN` returns on these statuses besides `HALTED` and a fault (60_exceptions.md R121). -/
def runStops : Status → Bool
  | .ready => false
  | .suspendedAwaitingInput => true
  | .suspendedAfterOutput => false
  | .halted => true

/-- `RUN_UNTIL_OUTPUT` returns on these statuses besides a fault (60_exceptions.md R124). -/
def outputStops : Status → Bool
  | .ready => false
  | .suspendedAwaitingInput => true
  | .suspendedAfterOutput => true
  | .halted => true

/-- The loop of RUN and RUN_UNTIL_OUTPUT, for at most `fuel` steps: `none` when it has not returned by then
(60_exceptions.md R121, R124). The fuel is the executor's and no part of the machine (R129). -/
def runLoop (stops : Status → Bool) : Nat → State → Option (Host.Outcome State Fault Refusal)
  | fuel, s =>
    if s.runs then
      match fuel with
      | 0 => none
      | n + 1 =>
        match step s with
        | .next t =>
          if t.fault.isSome || stops t.status then some (.next t) else runLoop stops n t
        | .fault r => some (.fault r)
        | .refused r => some (.refused r)
    else some (.next s)

/-- The run command returns, in the state `t`. -/
def RunReturns (stops : Status → Bool) (s t : State) : Prop :=
  ∃ fuel, runLoop stops fuel s = some (.next t)

/-- The run command never returns: an infinite execution (60_exceptions.md R129). -/
def RunHangs (stops : Status → Bool) (s : State) : Prop :=
  ∀ fuel, runLoop stops fuel s = none

/-! ### All commands -/

/-- What comes of a command. -/
inductive Response where
  /-- It returned a reply and left the engine in a state. -/
  | returned (r : Reply) (s : State)
  /-- It has no defined effect, or cannot be presented. -/
  | refused (why : Refusal)
  /-- A run command that has not returned within the executor's fuel. -/
  | running
  deriving DecidableEq, Repr

/-- The return of `(status, fault)` by a command that runs the engine (60_exceptions.md R115). -/
def Response.ofRun : Option (Host.Outcome State Fault Refusal) → Response
  | none => .running
  | some (.next t) => .returned (.ended t.status t.fault) t
  | some (.fault r) => nomatch r
  | some (.refused r) => .refused r

/-- `RESET(P)`: it discards whatever state there was (70_reset_and_hazards.md R130, R131); an image that does not
fit the port cannot be presented (R132). -/
def resetResponse (image : List Int) : Response :=
  if imageFits Config.width image then .returned .done (State.load image) else .refused .notPresentable

/-- A command on an engine that has been reset (60_exceptions.md R115 to R124). -/
def State.command (fuel : Nat) (c : Command) (s : State) : Response :=
  match c with
  | .reset image => resetResponse image
  | .pushInput v =>
    if Config.width.holds v then .returned .done (s.pushInput v) else .refused .notPresentable
  | .step => Response.ofRun (some (step s))
  | .run => Response.ofRun (runLoop runStops fuel s)
  | .runUntilOutput => Response.ofRun (runLoop outputStops fuel s)
  | .consumeOutput =>
    match s.consumeOutput with
    | .ok (v, t) => .returned (.word v) t
    | .error e => .returned (.failed e) s
  | .hasOutput => .returned (.flag s.hasOutput) s
  | .peek a =>
    match s.peek a with
    | .ok v => if Config.width.holds a then .returned (.word v) s else .refused .notPresentable
    | .error e => .returned (.failed e) s
  | .getStatus => .returned (.status s.status) s
  | .getPc => .returned (.word s.pc) s
  | .getRb => .returned (.word s.rb) s
  | .getFault => .returned (.fault s.fault) s

/-- A command on an engine that may not have been reset yet (`none`): then only `RESET` has a defined effect
(70_reset_and_hazards.md R134). -/
def command (fuel : Nat) (c : Command) : Option State → Response
  | some s => s.command fuel c
  | none =>
    match c with
    | .reset image => resetResponse image
    | .pushInput _ => .refused .beforeReset
    | .step => .refused .beforeReset
    | .run => .refused .beforeReset
    | .runUntilOutput => .refused .beforeReset
    | .consumeOutput => .refused .beforeReset
    | .hasOutput => .refused .beforeReset
    | .peek _ => .refused .beforeReset
    | .getStatus => .refused .beforeReset
    | .getPc => .refused .beforeReset
    | .getRb => .refused .beforeReset
    | .getFault => .refused .beforeReset

end Sys2Proof.Machine
end

