-- ==== Sys2Proof/Machine/Widths.lean ====
section
/-! DEFINITION. The same engine at every width (00_scope.md R2: `W` is a parameter of the model). `exec` and
`step` are the instance at `Config.width`, the spec's default. -/

namespace Sys2Proof.Machine

/-- The check and commit phases of an instruction at width `w`. -/
def effect (w : Width) (i : Instr) (s : State) : Except FaultRecord State :=
  match i with
  | .add a b d => addEffect w a b d s
  | .mul a b d => mulEffect w a b d s
  | .inp d => inpEffect w d s
  | .out a => outEffect w a s
  | .jt a t => jtEffect w a t s
  | .jf a t => jfEffect w a t s
  | .lt a b d => ltEffect w a b d s
  | .eq a b d => eqEffect w a b d s
  | .arb a => arbEffect w a s
  | .hlt => hltEffect s

/-- Fetch, decode and execute at width `w`: the state after the instruction, or the fault it raises. -/
def attempt (w : Width) (s : State) : Except FaultRecord State := do
  let i ← fetch w s
  effect w i s

/-- The state after one step at width `w`. -/
def stepAt (w : Width) (s : State) : State :=
  if s.runs then
    match attempt w s with
    | .ok t => t
    | .error f => s.takeFault f
  else s

end Sys2Proof.Machine
end

