-- ==== Sys2Proof/WellFormed.lean ====
section
/-! DEFINITION. When an instruction is one that memory can hold: every parameter cell holds a Word
(00_scope.md R1, R2). A mode that is illegal for its parameter cannot be written down at all: `Source` has the
three modes of 20_memory.md R34 and `Target` the two that R39 allows. -/

namespace Sys2Proof

/-- Every parameter is a Word of width `w`. -/
def Instr.wfAt (w : Width) (i : Instr) : Bool := i.params.all w.holds

/-- Every parameter is a Word of the default width. -/
def Instr.wf (i : Instr) : Bool := i.wfAt Config.width

end Sys2Proof
end

