-- ==== Sys2Proof/Safety.lean ====
section
/-! DEFINITION. The terms claims are stated in: the value and the address a parameter denotes by the mode table of
20_memory.md R35; the fault tests of 60_exceptions.md R109 as a list in the order of that table; the invariant of
10_state.md R24; the end of a run (60_exceptions.md R126). They are written from the spec's tables and not from
the meanings in Machine/. -/

namespace Sys2Proof.Machine

/-! ### What a parameter denotes (20_memory.md R35) -/

/-- The value of a source parameter: the column "as a source" of 20_memory.md R35, faults aside. -/
def sourceValue (s : State) : Source → Int
  | .position p => s.mem.read p.toNat
  | .immediate p => p
  | .relative p => s.mem.read (s.rb + p).toNat

/-- The address a write target names: the column "as a write target" of 20_memory.md R35, faults aside. -/
def targetAddress (s : State) : Target → Int
  | .position p => p
  | .relative p => s.rb + p

/-- The write target of an instruction and the Word it stores there, if it stores: ADD, MUL, LT, EQ, and IN when
input is waiting (10_state.md section 1; 40_arithmetic.md, 41_io.md, 43_compare.md). -/
def storeOf (s : State) : Instr → Option (Target × Int)
  | .add a b d => some (d, sourceValue s a + sourceValue s b)
  | .mul a b d => some (d, sourceValue s a * sourceValue s b)
  | .inp d => s.inq.head?.map fun v => (d, v)
  | .out _ => none
  | .jt _ _ => none
  | .jf _ _ => none
  | .lt a b d => some (d, if sourceValue s a < sourceValue s b then 1 else 0)
  | .eq a b d => some (d, if sourceValue s a = sourceValue s b then 1 else 0)
  | .arb _ => none
  | .hlt => none

/-! ### The fault tests (60_exceptions.md R109) -/

/-- A test that holds when the instruction faults, with the fault it reports. -/
abbrev FaultTest := Bool × FaultRecord

/-- "the step reports the first in this order and tests no further" (60_exceptions.md R109). -/
def firstFault : List FaultTest → Option FaultRecord
  | [] => none
  | (b, f) :: rest => if b then some f else firstFault rest

/-- `v` is outside the Word range: `ArithmeticOverflow(0)` (60_exceptions.md R105). -/
def outOfRange (w : Width) (v : Int) : FaultTest := (!w.holds v, ⟨.arithmeticOverflow, 0⟩)

/-- `a` is negative: `NegativeAddress(a)` (60_exceptions.md R104). -/
def isNegative (a : Int) : FaultTest := (decide (a < 0), ⟨.negativeAddress, a⟩)

/-- Orders 7 and 8 of 60_exceptions.md R109 for a source parameter. -/
def sourceTests (w : Width) (s : State) : Source → List FaultTest
  | .position p => [isNegative p]
  | .immediate _ => []
  | .relative p => [outOfRange w (s.rb + p), isNegative (s.rb + p)]

/-- Orders 7 and 8 of 60_exceptions.md R109 for a write target. -/
def targetTests (w : Width) (s : State) : Target → List FaultTest
  | .position p => [isNegative p]
  | .relative p => [outOfRange w (s.rb + p), isNegative (s.rb + p)]

/-- Orders 7 to 10 of 60_exceptions.md R109 for each instruction: its parameters in ascending order, the range of
its result (ADD, MUL, ARB), the range of its advanced `pc` (all but HLT). -/
def instrTests (w : Width) (s : State) : Instr → List FaultTest
  | .add a b d => sourceTests w s a ++ sourceTests w s b ++ targetTests w s d ++
      [outOfRange w (sourceValue s a + sourceValue s b), outOfRange w (s.pc + 4)]
  | .mul a b d => sourceTests w s a ++ sourceTests w s b ++ targetTests w s d ++
      [outOfRange w (sourceValue s a * sourceValue s b), outOfRange w (s.pc + 4)]
  | .inp d => targetTests w s d ++ [outOfRange w (s.pc + 2)]
  | .out a => sourceTests w s a ++ [outOfRange w (s.pc + 2)]
  | .jt a t => sourceTests w s a ++ sourceTests w s t ++ [outOfRange w (s.pc + 3)]
  | .jf a t => sourceTests w s a ++ sourceTests w s t ++ [outOfRange w (s.pc + 3)]
  | .lt a b d => sourceTests w s a ++ sourceTests w s b ++ targetTests w s d ++ [outOfRange w (s.pc + 4)]
  | .eq a b d => sourceTests w s a ++ sourceTests w s b ++ targetTests w s d ++ [outOfRange w (s.pc + 4)]
  | .arb a => sourceTests w s a ++ [outOfRange w (s.rb + sourceValue s a), outOfRange w (s.pc + 2)]
  | .hlt => []

/-- The Word in the cell `pc`, for a non-negative `pc`. -/
def instrWord (s : State) : Int := s.mem.read s.pc.toNat

/-- The four cells from `pc` on, as many as the longest instruction has. -/
def cellsAtPc (s : State) : List Int := s.mem.cells s.pc.toNat 4

/-- The whole table of 60_exceptions.md R109 for a step, orders 1 to 10, for the instruction `i` that the cells at
`pc` hold when orders 1 to 5 find nothing. -/
def priorityTable (w : Width) (s : State) : List FaultTest :=
  isNegative s.pc ::
    (decide (instrWord s < 0), ⟨.illegalOpcode, instrWord s⟩) ::
    match Opcode.ofNat? ((instrWord s).toNat % 100) with
    | none => [(true, ⟨.illegalOpcode, instrWord s⟩)]
    | some op =>
      (hasIllegalMode op (instrWord s).toNat, ⟨.illegalMode, instrWord s⟩) ::
        (hasReservedDigit op (instrWord s).toNat, ⟨.illegalMode, instrWord s⟩) ::
        (hasImmediateTarget op (instrWord s).toNat, ⟨.invalidWriteTarget, instrWord s⟩) ::
        ((List.range op.paramCount).map fun k => outOfRange w (s.pc + Int.ofNat (k + 1))) ++
        match decode (cellsAtPc s) with
        | .ok (i, _) => instrTests w s i
        | .error _ => []

/-! ### Invariants (10_state.md R24) -/

/-- `pc`, `rb`, every cell, every queue element and the latch's `info` are Words of width `w`, and every listed
address is one (20_memory.md R30: `ADDR_MAX = WORD_MAX`). -/
def State.holdsWords (w : Width) (s : State) : Prop :=
  w.holds s.pc = true ∧ w.holds s.rb = true ∧
    (∀ c ∈ s.mem, w.holds (Int.ofNat c.1) = true ∧ w.holds c.2 = true) ∧
    (∀ v ∈ s.inq, w.holds v = true) ∧ (∀ v ∈ s.outq, w.holds v = true) ∧
    (∀ f ∈ s.fault, w.holds f.info = true)

/-- A status of SUSPENDED_AWAITING_INPUT means that an IN stands at `pc` (10_state.md R14, R24). -/
def State.waitsAtIn (w : Width) (s : State) : Prop :=
  s.status = .suspendedAwaitingInput → ∃ d, fetch w s = .ok (.inp d)

/-- The invariant: every value is a Word, memory is in canonical form, a waiting engine stands at an IN. -/
def State.Inv (w : Width) (s : State) : Prop :=
  s.holdsWords w ∧ s.mem.wf = true ∧ s.waitsAtIn w

/-! ### Runs -/

/-- The run of a program is over (60_exceptions.md R126). -/
def State.isOver (s : State) : Bool := decide (s.status = .halted) && s.fault.isNone

/-- A run command that returns on the statuses `on` stops in the state `t` it has reached by `k` steps: before the
first step on a fault or HALTED, after a step on a fault or a status of the list (60_exceptions.md R121, R124). -/
def stopsAt (on : List Status) (k : Nat) (t : State) : Bool :=
  match k with
  | 0 => t.fault.isSome || decide (t.status = .halted)
  | _ + 1 => t.fault.isSome || decide (t.status ∈ on)

end Sys2Proof.Machine
end

