-- ==== Sys2Proof/Certificates/Slice0/Obligations.lean ====
section
/-! DEFINITION. The statements for the provers. `D<n>` in a docstring is a decision of spec/92_eei_decisions.md that
the spec marks as its own and not the source's. -/

open Sys2Proof Sys2Proof.Machine

/-! ### Encoding and decoding -/

/-- Words written out from the examples of 30_encoding.md R66 and the formats of R52, one or more for each
opcode, decode to the instructions they stand for, whatever the parameters hold. -/
def Obligations.WrittenOutWordsDecode : Prop :=
  ∀ (p q r : Int) (rest : List Int),
    decode (1 :: p :: q :: r :: rest) = .ok (.add (.position p) (.position q) (.position r), rest) ∧
    decode (1101 :: p :: q :: r :: rest) = .ok (.add (.immediate p) (.immediate q) (.position r), rest) ∧
    decode (1002 :: p :: q :: r :: rest) = .ok (.mul (.position p) (.immediate q) (.position r), rest) ∧
    decode (203 :: p :: rest) = .ok (.inp (.relative p), rest) ∧
    decode (204 :: p :: rest) = .ok (.out (.relative p), rest) ∧
    decode (1005 :: p :: q :: rest) = .ok (.jt (.position p) (.immediate q), rest) ∧
    decode (1006 :: p :: q :: rest) = .ok (.jf (.position p) (.immediate q), rest) ∧
    decode (20107 :: p :: q :: r :: rest) = .ok (.lt (.immediate p) (.position q) (.relative r), rest) ∧
    decode (1008 :: p :: q :: r :: rest) = .ok (.eq (.position p) (.immediate q) (.position r), rest) ∧
    decode (109 :: p :: rest) = .ok (.arb (.immediate p), rest) ∧
    decode (99 :: rest) = .ok (.hlt, rest)

/-- Decoding the cells of any instruction, with anything after them, gives the instruction back and leaves what
came after (30_encoding.md section 7, R66). It holds for every parameter value, a Word or not. -/
def Obligations.DecodeOfEncodeGivesTheInstruction : Prop :=
  ∀ (i : Instr) (rest : List Int), decode (encode i ++ rest) = .ok (i, rest)

/-- Cells that decode are the encoding of what they decode to, so no two spellings of an instruction exist
(30_encoding.md sections 1, 2 and 4). -/
def Obligations.DecodedCellsAreTheEncoding : Prop :=
  ∀ (cells rest : List Int) (i : Instr),
    decode cells = .ok (i, rest) → i.length ≤ cells.length → encode i ++ rest = cells

/-- Exactly 99 instruction words are legal (30_encoding.md section 2: "the map holds ... = 99 legal instruction
words"). -/
def Obligations.ExactlyNinetyNineLegalWords : Prop :=
  ∃ l : List Int, l.length = 99 ∧ l.Nodup ∧ ∀ I : Int, I ∈ l ↔ ∃ h, decodeHead I = .ok h

/-- 30_encoding.md R62: the length is one cell and the parameters of the opcode, 1 to 4, and the mode digits do not
change it; nothing but `pc` and memory has a part in which instruction is fetched. -/
def Obligations.LengthIsAFunctionOfTheOpcode : Prop :=
  (∀ (cells rest : List Int) (i : Instr), decode cells = .ok (i, rest) →
    ∃ op, Opcode.ofNat? ((cells.getD 0 0).toNat % 100) = some op ∧ i.length = 1 + op.paramCount ∧
      1 ≤ i.length ∧ i.length ≤ 4 ∧ rest = cells.drop i.length) ∧
  ∀ s t : State, t.pc = s.pc → t.mem = s.mem → fetch Config.width t = fetch Config.width s

/-! ### Fetch and decode inside a step -/

/-- The step of a running engine whose cells at `pc` decode to an instruction, with its cells inside the address
space, is `exec` of that instruction on the same state: fetching changes nothing, and `pc` still points at the
instruction (30_encoding.md R54). -/
def Obligations.StepRunsTheDecodedInstruction : Prop :=
  ∀ (s : State) (i : Instr) (rest : List Int),
    s.runs = true → 0 ≤ s.pc → decode (cellsAtPc s) = .ok (i, rest) →
    Config.width.holds s.pc = true → Config.width.holds (s.pc + Int.ofNat (i.length - 1)) = true →
    step s = exec i s

/-- A running engine whose instruction word is negative or ends in no digits of the opcode map takes
`IllegalOpcode(I)` (30_encoding.md section 4). That a negative word is illegal is the spec's own decision D3. -/
def Obligations.IllegalOpcodeFaults : Prop :=
  ∀ s : State, s.runs = true → 0 ≤ s.pc →
    (instrWord s < 0 ∨ instrWord s % 100 ∉ ([1, 2, 3, 4, 5, 6, 7, 8, 9, 99] : List Int)) →
    step s = .next { s with fault := some ⟨.illegalOpcode, instrWord s⟩ }

/-- A running engine whose instruction word has an opcode of the map, but a mode digit 3 to 9 of a parameter it
has, or a non-zero digit above its last parameter's, takes `IllegalMode(I)` (30_encoding.md section 4). The fault
is the spec's own decision, D4 and D5; that it comes before `InvalidWriteTarget` in a word such as 11301 is the order
of 60_exceptions.md section 3, decision D8, log entry 15. -/
def Obligations.IllegalModeFaults : Prop :=
  ∀ (s : State) (op : Opcode), s.runs = true → 0 ≤ s.pc → 0 ≤ instrWord s →
    instrWord s % 100 = Int.ofNat op.code →
    (1 ≤ op.paramCount ∧ 2 < instrWord s / 100 % 10 ∨ 2 ≤ op.paramCount ∧ 2 < instrWord s / 1000 % 10 ∨
      3 ≤ op.paramCount ∧ 2 < instrWord s / 10000 % 10 ∨
      op.paramCount < 1 ∧ instrWord s / 100 % 10 ≠ 0 ∨ op.paramCount < 2 ∧ instrWord s / 1000 % 10 ≠ 0 ∨
      op.paramCount < 3 ∧ instrWord s / 10000 % 10 ≠ 0 ∨ instrWord s / 100000 ≠ 0) →
    step s = .next { s with fault := some ⟨.illegalMode, instrWord s⟩ }

/-- A running engine at a word whose digits are otherwise legal takes `InvalidWriteTarget(I)` when the write target has
mode 1: the ten-thousands digit of ADD, MUL, LT, EQ, the hundreds digit of IN (30_encoding.md section 4). That the
decoder makes the test is the spec's own decision D8. -/
def Obligations.ImmediateWriteTargetFaults : Prop :=
  ∀ s : State, s.runs = true → 0 ≤ s.pc →
    (instrWord s = 103 ∨
      ∃ c m1 m2 : Int, c ∈ ([1, 2, 7, 8] : List Int) ∧ m1 ∈ ([0, 1, 2] : List Int) ∧ m2 ∈ ([0, 1, 2] : List Int) ∧
        instrWord s = c + 100 * m1 + 1000 * m2 + 10000) →
    step s = .next { s with fault := some ⟨.invalidWriteTarget, instrWord s⟩ }

/-- A running engine with a negative `pc` takes `NegativeAddress(pc)` at the fetch, and `pc` keeps its value
(30_encoding.md section 3, R55). -/
def Obligations.NegativePcFaultsAtFetch : Prop :=
  ∀ s : State, s.runs = true → s.pc < 0 →
    step s = .next { s with fault := some ⟨.negativeAddress, s.pc⟩ }

/-- A running engine at a legal instruction word with a parameter cell above `WORD_MAX` takes
`ArithmeticOverflow(0)` (30_encoding.md section 3). The spec's own decisions D2 and D16. -/
def Obligations.ParameterBeyondTheTopFaults : Prop :=
  ∀ (s : State) (h : Head), s.runs = true → 0 ≤ s.pc → Config.width.holds s.pc = true →
    decodeHead (instrWord s) = .ok h → Config.width.holds (s.pc + Int.ofNat h.op.paramCount) = false →
    step s = .next { s with fault := some ⟨.arithmeticOverflow, 0⟩ }

/-! ### The step as a whole -/

/-- Every step of every state answers a next state. A fault is one, with the latch set (the spec's own decision D6, log
entry 5), and so is the no-op of a halted engine (D10, log entry 6); 60_exceptions.md sections 2 and 8. -/
def Obligations.StepAlwaysAnswersANextState : Prop :=
  ∀ s : State, ∃ t, step s = .next t

/-- The whole step against the table of 60_exceptions.md section 3: on a running engine the first test of the table
that holds is the fault taken, and when none holds the cells at `pc` decode to an instruction whose `exec` is the
step, and no fault is latched after it. The order is the spec's own decision D8, D9. -/
def Obligations.StepFollowsThePriorityTable : Prop :=
  ∀ s : State, s.runs = true →
    (∀ f, firstFault (priorityTable Config.width s) = some f → step s = .next { s with fault := some f }) ∧
    (firstFault (priorityTable Config.width s) = none →
      ∃ i rest t, decode (cellsAtPc s) = .ok (i, rest) ∧ exec i s = .next t ∧ step s = .next t ∧ t.fault = none)

/-- A fault is precise: an instruction, and a step, either leaves the latch as it was or changes nothing else
(60_exceptions.md section 2). The latch is the spec's own decision D6. -/
def Obligations.FaultChangesOnlyTheLatch : Prop :=
  (∀ (i : Instr) (s t : State), exec i s = .next t → t.fault = s.fault ∨ t = { s with fault := t.fault }) ∧
  (∀ s t : State, step s = .next t → t.fault = s.fault ∨ t = { s with fault := t.fault })

/-- While a fault is latched a step and both run commands change nothing (60_exceptions.md section 2). The
stickiness is the spec's own decision D6. -/
def Obligations.LatchedFaultStopsTheEngine : Prop :=
  ∀ (s : State) (f : FaultRecord) (fuel : Nat), s.fault = some f →
    step s = .next s ∧ runLoop runStops fuel s = some (.next s) ∧ runLoop outputStops fuel s = some (.next s)

/-- A step of a halted engine changes nothing, and raises no fault (60_exceptions.md section 8). The no-op is the
spec's own decision D10. -/
def Obligations.HaltedStepIsANoop : Prop :=
  ∀ (s : State) (fuel : Nat), s.status = .halted →
    step s = .next s ∧ runLoop runStops fuel s = some (.next s) ∧ runLoop outputStops fuel s = some (.next s)

/-! ### The instructions: encoding, effect, faults in the order tested -/

/-- ADD (40_arithmetic.md, section ADD): the encoding, the exact sum stored when no test finds a fault, and the first
fault in the section's order otherwise. That a sum out of range faults is the spec's own decision D2, the order D8. -/
def Obligations.AddStoresTheSum : Prop :=
  ∀ (a b : Source) (d : Target) (s : State),
    let x := sourceValue s a
    let y := sourceValue s b
    let tests := sourceTests Config.width s a ++ sourceTests Config.width s b ++ targetTests Config.width s d ++
      [outOfRange Config.width (x + y), outOfRange Config.width (s.pc + 4)]
    encode (.add a b d) =
      [Int.ofNat (1 + 100 * a.modeCode + 1000 * b.modeCode + 10000 * d.modeCode), a.param, b.param, d.param] ∧
    (firstFault tests = none → exec (.add a b d) s =
      .next { s with mem := s.mem.write (targetAddress s d).toNat (x + y), pc := s.pc + 4, status := .ready }) ∧
    (∀ f, firstFault tests = some f → exec (.add a b d) s = .next { s with fault := some f })

/-- MUL (40_arithmetic.md, section MUL): as ADD, with the exact product, under the same decisions. -/
def Obligations.MulStoresTheProduct : Prop :=
  ∀ (a b : Source) (d : Target) (s : State),
    let x := sourceValue s a
    let y := sourceValue s b
    let tests := sourceTests Config.width s a ++ sourceTests Config.width s b ++ targetTests Config.width s d ++
      [outOfRange Config.width (x * y), outOfRange Config.width (s.pc + 4)]
    encode (.mul a b d) =
      [Int.ofNat (2 + 100 * a.modeCode + 1000 * b.modeCode + 10000 * d.modeCode), a.param, b.param, d.param] ∧
    (firstFault tests = none → exec (.mul a b d) s =
      .next { s with mem := s.mem.write (targetAddress s d).toNat (x * y), pc := s.pc + 4, status := .ready }) ∧
    (∀ f, firstFault tests = some f → exec (.mul a b d) s = .next { s with fault := some f })

/-- IN with input waiting takes exactly the oldest value, stores it and leaves the rest (41_io.md, section IN). The
range checks among its tests are the spec's own decision D2. -/
def Obligations.InTakesTheOldestInput : Prop :=
  ∀ (d : Target) (s : State) (v : Int) (rest : List Int), s.inq = v :: rest →
    firstFault (targetTests Config.width s d ++ [outOfRange Config.width (s.pc + 2)]) = none →
    exec (.inp d) s = .next { s with
      mem := s.mem.write (targetAddress s d).toNat v, inq := rest, pc := s.pc + 2, status := .ready }

/-- IN with no input waiting writes the status and nothing else, so the next step attempts the same instruction
again (41_io.md, section IN). The range checks among its tests are the spec's own decision D2. -/
def Obligations.InWaitsOnAnEmptyQueue : Prop :=
  ∀ (d : Target) (s : State), s.inq = [] →
    firstFault (targetTests Config.width s d ++ [outOfRange Config.width (s.pc + 2)]) = none →
    exec (.inp d) s = .next { s with status := .suspendedAwaitingInput }

/-- Every fault of IN is taken before the queue is looked at, whatever the queue holds, and no value is taken
(41_io.md, section IN). The spec's own decision D9, 90_conflicts.md C4. -/
def Obligations.InFaultsBeforeTheQueueIsTested : Prop :=
  ∀ (d : Target) (s : State) (q : List Int) (f : FaultRecord),
    firstFault (targetTests Config.width s d ++ [outOfRange Config.width (s.pc + 2)]) = some f →
    exec (.inp d) { s with inq := q } = .next { s with inq := q, fault := some f }

/-- OUT (41_io.md, section OUT): the encoding, the value appended to `outq`, the faults in the section's order. The
range checks are the spec's own decision D2, the order D8. -/
def Obligations.OutAppendsTheOperand : Prop :=
  ∀ (a : Source) (s : State),
    let tests := sourceTests Config.width s a ++ [outOfRange Config.width (s.pc + 2)]
    encode (.out a) = [Int.ofNat (4 + 100 * a.modeCode), a.param] ∧
    (firstFault tests = none → exec (.out a) s = .next { s with
      outq := s.outq ++ [sourceValue s a], pc := s.pc + 2, status := .suspendedAfterOutput }) ∧
    (∀ f, firstFault tests = some f → exec (.out a) s = .next { s with fault := some f })

/-- JT (42_jumps.md, section JT): the encoding; operand 2 is the new `pc`, unchecked, when operand 1 is not 0, else
`pc + 3`; the faults in order, both operands resolved whether or not the jump is taken. That they are is the spec's
own decision D8, the unchecked target D17. -/
def Obligations.JtJumpsOnNonZero : Prop :=
  ∀ (a t : Source) (s : State),
    let tests := sourceTests Config.width s a ++ sourceTests Config.width s t ++ [outOfRange Config.width (s.pc + 3)]
    encode (.jt a t) = [Int.ofNat (5 + 100 * a.modeCode + 1000 * t.modeCode), a.param, t.param] ∧
    (firstFault tests = none → exec (.jt a t) s = .next { s with
      pc := if sourceValue s a ≠ 0 then sourceValue s t else s.pc + 3, status := .ready }) ∧
    (∀ f, firstFault tests = some f → exec (.jt a t) s = .next { s with fault := some f })

/-- JF (42_jumps.md, section JF): as JT with the condition inverted. -/
def Obligations.JfJumpsOnZero : Prop :=
  ∀ (a t : Source) (s : State),
    let tests := sourceTests Config.width s a ++ sourceTests Config.width s t ++ [outOfRange Config.width (s.pc + 3)]
    encode (.jf a t) = [Int.ofNat (6 + 100 * a.modeCode + 1000 * t.modeCode), a.param, t.param] ∧
    (firstFault tests = none → exec (.jf a t) s = .next { s with
      pc := if sourceValue s a = 0 then sourceValue s t else s.pc + 3, status := .ready }) ∧
    (∀ f, firstFault tests = some f → exec (.jf a t) s = .next { s with fault := some f })

/-- LT (43_compare.md, section LT): the encoding, the Word 1 or 0 stored by a signed strict comparison that cannot
overflow, the faults in the section's order. The range checks are the spec's own decision D2, the order D8. -/
def Obligations.LtStoresTheComparison : Prop :=
  ∀ (a b : Source) (d : Target) (s : State),
    let tests := sourceTests Config.width s a ++ sourceTests Config.width s b ++ targetTests Config.width s d ++
      [outOfRange Config.width (s.pc + 4)]
    encode (.lt a b d) =
      [Int.ofNat (7 + 100 * a.modeCode + 1000 * b.modeCode + 10000 * d.modeCode), a.param, b.param, d.param] ∧
    (firstFault tests = none → exec (.lt a b d) s = .next { s with
      mem := s.mem.write (targetAddress s d).toNat (if sourceValue s a < sourceValue s b then 1 else 0)
      pc := s.pc + 4, status := .ready }) ∧
    (∀ f, firstFault tests = some f → exec (.lt a b d) s = .next { s with fault := some f })

/-- EQ (43_compare.md, section EQ): as LT, with equality of integer values, under the same decisions. -/
def Obligations.EqStoresTheComparison : Prop :=
  ∀ (a b : Source) (d : Target) (s : State),
    let tests := sourceTests Config.width s a ++ sourceTests Config.width s b ++ targetTests Config.width s d ++
      [outOfRange Config.width (s.pc + 4)]
    encode (.eq a b d) =
      [Int.ofNat (8 + 100 * a.modeCode + 1000 * b.modeCode + 10000 * d.modeCode), a.param, b.param, d.param] ∧
    (firstFault tests = none → exec (.eq a b d) s = .next { s with
      mem := s.mem.write (targetAddress s d).toNat (if sourceValue s a = sourceValue s b then 1 else 0)
      pc := s.pc + 4, status := .ready }) ∧
    (∀ f, firstFault tests = some f → exec (.eq a b d) s = .next { s with fault := some f })

/-- ARB (44_relbase_halt.md, section ARB): the encoding, the operand (resolved with the old base) added to `rb`, the
faults in the section's order. The range checks are the spec's own decision D2, the order D8. -/
def Obligations.ArbAddsToTheBase : Prop :=
  ∀ (a : Source) (s : State),
    let tests := sourceTests Config.width s a ++
      [outOfRange Config.width (s.rb + sourceValue s a), outOfRange Config.width (s.pc + 2)]
    encode (.arb a) = [Int.ofNat (9 + 100 * a.modeCode), a.param] ∧
    (firstFault tests = none → exec (.arb a) s = .next { s with
      rb := s.rb + sourceValue s a, pc := s.pc + 2, status := .ready }) ∧
    (∀ f, firstFault tests = some f → exec (.arb a) s = .next { s with fault := some f })

/-- HLT (44_relbase_halt.md, section HLT) is the one word 99 (that its other digits must be 0 is the spec's own
decision D5), it always completes, writing `status` alone, and since it fetches
no parameter its step completes wherever `pc` stands, in the cell `WORD_MAX` too. -/
def Obligations.HltHaltsInPlace : Prop :=
  encode .hlt = [99] ∧ (∀ I h, decodeHead I = .ok h → h.op = .hlt → I = 99) ∧
  (∀ s : State, exec .hlt s = .next { s with status := .halted }) ∧
  ∀ s : State, s.runs = true → 0 ≤ s.pc → instrWord s = 99 → step s = .next { s with status := .halted }

/-! ### Frames -/

/-- The frame of ADD, MUL, LT and EQ: `rb` and both queues are unchanged; the fault latch is unchanged or everything
else is; every cell but the one at the address `writeTarget` resolves reads as before (20_memory.md section 2). -/
def Obligations.StoringInstructionsFrame : Prop :=
  ∀ (a b : Source) (d : Target) (s t : State),
    (exec (.add a b d) s = .next t ∨ exec (.mul a b d) s = .next t ∨
      exec (.lt a b d) s = .next t ∨ exec (.eq a b d) s = .next t) →
    t.rb = s.rb ∧ t.inq = s.inq ∧ t.outq = s.outq ∧
    (t.fault = s.fault ∨ t = { s with fault := t.fault }) ∧
    ∀ n : Nat, writeTarget Config.width s d ≠ .ok n → t.mem.read n = s.mem.read n

/-- The frame of IN: `rb` and `outq` are unchanged; `inq` is unchanged or has lost its head; the fault latch is
unchanged or everything else is; every cell but the one at the address `writeTarget` resolves reads as before, and
all of them when `inq` was empty (41_io.md, section IN). -/
def Obligations.InputInstructionFrame : Prop :=
  ∀ (d : Target) (s t : State), exec (.inp d) s = .next t →
    t.rb = s.rb ∧ t.outq = s.outq ∧ (t.inq = s.inq ∨ t.inq = s.inq.tail) ∧
    (t.fault = s.fault ∨ t = { s with fault := t.fault }) ∧
    ∀ n : Nat, (s.inq = [] ∨ writeTarget Config.width s d ≠ .ok n) → t.mem.read n = s.mem.read n

/-- The frame of OUT, JT, JF, ARB and HLT: memory and `inq` are unchanged; `rb` is unchanged but by ARB; `outq` is
unchanged but by OUT, which appends; `pc` is unchanged by HLT; the fault latch is unchanged or everything else is. -/
def Obligations.NonStoringInstructionsFrame : Prop :=
  ∀ (a b : Source) (s t : State),
    (exec (.out a) s = .next t →
      t.mem = s.mem ∧ t.inq = s.inq ∧ t.rb = s.rb ∧ (t.outq = s.outq ∨ ∃ v, t.outq = s.outq ++ [v]) ∧
      (t.fault = s.fault ∨ t = { s with fault := t.fault })) ∧
    ((exec (.jt a b) s = .next t ∨ exec (.jf a b) s = .next t) →
      t.mem = s.mem ∧ t.inq = s.inq ∧ t.rb = s.rb ∧ t.outq = s.outq ∧
      (t.fault = s.fault ∨ t = { s with fault := t.fault })) ∧
    (exec (.arb a) s = .next t →
      t.mem = s.mem ∧ t.inq = s.inq ∧ t.outq = s.outq ∧ (t.fault = s.fault ∨ t = { s with fault := t.fault })) ∧
    (exec .hlt s = .next t →
      t.mem = s.mem ∧ t.inq = s.inq ∧ t.outq = s.outq ∧ t.rb = s.rb ∧ t.pc = s.pc ∧ t.fault = s.fault)

/-! ### Rules over all instructions -/

/-- `rb` is written by ARB alone (10_state.md section 5, 44_relbase_halt.md). -/
def Obligations.OnlyArbWritesTheBase : Prop :=
  ∀ (i : Instr) (s t : State), exec i s = .next t → t.rb ≠ s.rb → ∃ a, i = .arb a

/-- Memory changes only by ADD, MUL, IN, LT and EQ (10_state.md section 1), and by IN only when it takes a value. -/
def Obligations.OnlyStoringInstructionsChangeMemory : Prop :=
  ∀ (i : Instr) (s t : State), exec i s = .next t → t.mem ≠ s.mem →
    (∃ a b d, i = .add a b d ∨ i = .mul a b d ∨ i = .lt a b d ∨ i = .eq a b d) ∨ (s.inq ≠ [] ∧ ∃ d, i = .inp d)

/-- The table of 10_state.md section 3, from a state with no fault latched: an instruction that faults leaves `pc`
unchanged, and one that does not leaves it as its row says. That the advanced `pc` is checked and faults, which the
table's last row takes in, is the spec's own decision D2, the latch that tells the two cases apart D6. -/
def Obligations.NextPcOfEachInstruction : Prop :=
  ∀ (i : Instr) (s t : State), s.fault = none → exec i s = .next t →
    (t.fault ≠ none → t.pc = s.pc) ∧
    (t.fault = none → t.pc = match i with
      | .add _ _ _ => s.pc + 4
      | .mul _ _ _ => s.pc + 4
      | .inp _ => if s.inq = [] then s.pc else s.pc + 2
      | .out _ => s.pc + 2
      | .jt a b => if sourceValue s a ≠ 0 then sourceValue s b else s.pc + 3
      | .jf a b => if sourceValue s a = 0 then sourceValue s b else s.pc + 3
      | .lt _ _ _ => s.pc + 4
      | .eq _ _ _ => s.pc + 4
      | .arb _ => s.pc + 2
      | .hlt => s.pc)

/-- The transitions of `status` by a step, complete (60_exceptions.md section 9): unchanged by a fault and on an
engine that does not run; otherwise what the executed instruction leaves, from any status. That an ordinary
instruction leaves READY from a suspended status is the spec's own decision D11. -/
def Obligations.StatusAfterAStep : Prop :=
  ∀ s t : State, step s = .next t →
    (s.runs = false → t.status = s.status) ∧
    (s.runs = true → t.fault ≠ none → t.status = s.status) ∧
    (s.runs = true → t.fault = none → ∃ i, fetch Config.width s = .ok i ∧
      t.status = match i with
        | .add _ _ _ => .ready
        | .mul _ _ _ => .ready
        | .inp _ => if s.inq = [] then .suspendedAwaitingInput else .ready
        | .out _ => .suspendedAfterOutput
        | .jt _ _ => .ready
        | .jf _ _ => .ready
        | .lt _ _ _ => .ready
        | .eq _ _ _ => .ready
        | .arb _ => .ready
        | .hlt => .halted)

/-- A status other than HALTED does not gate the step: from any two of them the step is the same, and a step that
faults leaves the status it began with (10_state.md section 5). -/
def Obligations.StatusDoesNotGateTheStep : Prop :=
  ∀ (s t : State) (st : Status), s.status ≠ .halted → st ≠ .halted → step s = .next t →
    (t.fault = none → step { s with status := st } = .next t) ∧
    (t.fault ≠ none → step { s with status := st } = .next { t with status := st })

/-- The engine never reads `outq`: with another output queue the step is the same and appends the same values
(10_state.md section 9). -/
def Obligations.TheOutputQueueIsNeverRead : Prop :=
  ∀ (s t : State) (q : List Int), step s = .next t →
    ∃ added : List Int, t.outq = s.outq ++ added ∧ step { s with outq := q } = .next { t with outq := q ++ added }

/-- Whether a step faults, and with what, never depends on the input queue (41_io.md, section IN). The spec's own
decision D9. -/
def Obligations.InputNeverDecidesAFault : Prop :=
  ∀ (s t u : State) (q : List Int), step s = .next t → step { s with inq := q } = .next u → u.fault = t.fault

/-! ### Memory and addressing modes -/

/-- 20_memory.md R32: a read at a negative address raises `NegativeAddress`, any other gives the stored Word: after
reset the program's Word, or 0 beyond the program; after a write to the cell the Word written; after a write to
another cell what was there before. -/
def Obligations.MemoryReadGivesTheStoredWord : Prop :=
  (∀ (m : Memory) (a : Int), a < 0 → memRead m a = .error ⟨.negativeAddress, a⟩) ∧
  (∀ (image : List Int) (a : Int), 0 ≤ a → memRead (State.load image).mem a = .ok (image.getD a.toNat 0)) ∧
  (∀ (m n : Memory) (a v : Int), m.wf = true → memWrite m a v = .ok n → memRead n a = .ok v) ∧
  (∀ (m n : Memory) (a b v : Int), memWrite m a v = .ok n → b ≠ a → memRead n b = memRead m b)

/-- Memory writes (20_memory.md section 2): a write at a negative address raises `NegativeAddress`; any other succeeds, changes no other
cell, keeps the canonical form, and repeated writes to one cell simply overwrite; a write to an address that
`WriteTarget` resolved never raises. The canonical form is the model's choice, log entry 2. -/
def Obligations.MemoryWriteChangesOneCell : Prop :=
  (∀ (m : Memory) (a v : Int), a < 0 → memWrite m a v = .error ⟨.negativeAddress, a⟩) ∧
  (∀ (m : Memory) (a v : Int), m.wf = true → 0 ≤ a → ∃ n, memWrite m a v = .ok n ∧ n.wf = true ∧
    (∀ b : Nat, n.read b = if Int.ofNat b = a then v else m.read b) ∧
    ∀ u, memWrite n a u = memWrite m a u) ∧
  (∀ (s : State) (d : Target) (n : Nat) (v : Int), writeTarget Config.width s d = .ok n →
    targetAddress s d = Int.ofNat n ∧ memWrite s.mem (targetAddress s d) v = .ok (s.mem.write n v))

/-- `ReadOperand` by mode: the cell at the parameter, the parameter, the cell at `rb` plus the parameter, with the
faults of 20_memory.md section 3. The range check of `rb + p` is the spec's own decision D2. -/
def Obligations.ReadOperandFollowsTheModeTable : Prop :=
  ∀ (w : Width) (s : State) (p : Int),
    readOperand w s (.immediate p) = .ok p ∧
    readOperand w s (.position p) =
      (if p < 0 then .error ⟨.negativeAddress, p⟩ else .ok (s.mem.read p.toNat)) ∧
    readOperand w s (.relative p) =
      (if w.holds (s.rb + p) = false then .error ⟨.arithmeticOverflow, 0⟩
       else if s.rb + p < 0 then .error ⟨.negativeAddress, s.rb + p⟩
       else .ok (s.mem.read (s.rb + p).toNat))

/-- `WriteTarget` by mode: the parameter itself or `rb` plus the parameter is the address, never dereferenced
(20_memory.md section 3). The range check of `rb + p` is the spec's own decision D2. -/
def Obligations.WriteTargetIsNotDereferenced : Prop :=
  ∀ (w : Width) (s : State) (p : Int),
    writeTarget w s (.position p) = (if p < 0 then .error ⟨.negativeAddress, p⟩ else .ok p.toNat) ∧
    writeTarget w s (.relative p) =
      (if w.holds (s.rb + p) = false then .error ⟨.arithmeticOverflow, 0⟩
       else if s.rb + p < 0 then .error ⟨.negativeAddress, s.rb + p⟩
       else .ok (s.rb + p).toNat)

/-- A store to the next instruction word is executed as stored, with no fence (20_memory.md section 9), by ADD, MUL,
LT and EQ (the cell `pc + 4`) and by an IN that takes a value (the cell `pc + 2`): the engine stands at the cell and
runs, a stored Word that the decoder refuses is the fault of the next step, and any other is what the next step fetches
and executes, with the parameters that memory holds after the store. Which Words the decoder refuses is in part the
spec's own decisions D3, D4, D5, D8, and a parameter beyond `WORD_MAX`, left out here, is D2. -/
def Obligations.StoreToTheNextWordIsFetched : Prop :=
  ∀ (i : Instr) (d : Target) (v : Int) (s t : State), s.mem.wf = true → storeOf s i = some (d, v) →
    targetAddress s d = s.pc + Int.ofNat i.length → s.fault = none → exec i s = .next t → t.fault = none →
    t.pc = targetAddress s d ∧ t.runs = true ∧
    (∀ e, decodeHead v = .error e →
      fetch Config.width t = .error (decodeFault e) ∧ step t = .next { t with fault := some (decodeFault e) }) ∧
    (∀ h, decodeHead v = .ok h → Config.width.holds (t.pc + Int.ofNat h.op.paramCount) = true →
      let j := assemble h (t.mem.cells (t.pc.toNat + 1) h.op.paramCount)
      fetch Config.width t = .ok j ∧ step t = exec j t)

/-! ### Invariants -/

/-- `State.reset`, the reset with the empty image (the model's choice, log entry 4), meets the invariant of
10_state.md section 11, to which the model adds that memory is in canonical form (its choice, log entry 2). -/
def Obligations.ResetMeetsTheInvariant : Prop := State.reset.Inv Config.width

/-- Every step keeps the invariant of 10_state.md section 11, that every value is a Word and that
SUSPENDED_AWAITING_INPUT means that an IN stands at `pc`, together with a clause of the model's own: memory is in
canonical form (log entry 2). -/
def Obligations.StepKeepsTheInvariant : Prop :=
  ∀ s t : State, s.Inv Config.width → step s = .next t → t.Inv Config.width

/-- Every host command that returns keeps the invariant of 10_state.md section 11 and the model's own clause that memory
is in canonical form (log entry 2), the run commands and a reset from any engine state included. -/
def Obligations.CommandsKeepTheInvariant : Prop :=
  ∀ (fuel : Nat) (c : Command) (e : Option State) (r : Reply) (t : State),
    (∀ s, e = some s → s.Inv Config.width) → command fuel c e = .returned r t → t.Inv Config.width

/-! ### The width parameter -/

/-- The width is a parameter that only `ArithmeticOverflow` can see (00_scope.md section 4): at every width the spec
admits, 64 bits or more or infinite, a step that does not newly overflow at 64 bits is the same step.
The parameter is the spec's own decision D1, the overflow fault D2; that `step` takes 64 bits is the model's choice,
log entry 1. -/
def Obligations.WiderWordsAgreeUntilOverflow : Prop :=
  ∀ (w : Width) (s t : State), w.admitted = true → step s = .next t →
    (s.runs = true → t.fault ≠ some ⟨.arithmeticOverflow, 0⟩) → stepAt w s = t

/-- With `W = infinity` no step raises `ArithmeticOverflow` (00_scope.md section 4, 60_exceptions.md section 1). -/
def Obligations.UnboundedWordsNeverOverflow : Prop :=
  ∀ (s : State) (n : Int), s.runs = true → (stepAt .unbounded s).fault ≠ some ⟨.arithmeticOverflow, n⟩

/-! ### Host commands -/

/-- `RESET(P)` from any engine state, reset before or not: `P` at `0 .. len-1`, 0 elsewhere, every register and queue
at its reset value, nothing of the earlier state left (70_reset_and_hazards.md section 1). The fault latch and the
empty queues are the spec's own decisions D6 and D14, reset in any state D23. -/
def Obligations.ResetLoadsTheImage : Prop :=
  ∀ (fuel : Nat) (image : List Int) (e : Option State), imageFits Config.width image = true →
    ∃ t, command fuel (.reset image) e = .returned .done t ∧
      t.pc = 0 ∧ t.rb = 0 ∧ t.status = .ready ∧ t.fault = none ∧ t.inq = [] ∧ t.outq = [] ∧
      ∀ a : Nat, t.mem.read a = image.getD a 0

/-- Before the first `RESET` every other command is refused by name (70_reset_and_hazards.md section 2). The spec's
own decision D23. -/
def Obligations.OnlyResetBeforeTheFirstReset : Prop :=
  ∀ (fuel : Nat) (c : Command), (∀ image, c ≠ .reset image) → command fuel c none = .refused .beforeReset

/-- `PUSH_INPUT(v)` of a Word always succeeds, in any status and with a fault latched, and appends to `inq` alone, so
that the values leave in the order they entered (60_exceptions.md section 8). That it leaves `status` alone is the
spec's own decision D12. -/
def Obligations.PushInputAppendsToTheQueue : Prop :=
  ∀ (fuel : Nat) (s : State) (v : Int), Config.width.holds v = true →
    command fuel (.pushInput v) (some s) = .returned .done { s with inq := s.inq ++ [v] }

/-- 60_exceptions.md R119: `CONSUME_OUTPUT` fails on an empty queue with nothing changed, else it returns and removes
the oldest value; the status does not matter and does not change. -/
def Obligations.ConsumeOutputTakesTheOldest : Prop :=
  ∀ (fuel : Nat) (s : State),
    (s.outq = [] → command fuel .consumeOutput (some s) = .returned (.failed .emptyOutput) s) ∧
    (∀ v rest, s.outq = v :: rest →
      command fuel .consumeOutput (some s) = .returned (.word v) { s with outq := rest })

/-- 60_exceptions.md R120: `HAS_OUTPUT` is true iff the output queue is non-empty, and changes nothing. -/
def Obligations.HasOutputTellsNonEmpty : Prop :=
  ∀ (fuel : Nat) (s : State), ∃ b, command fuel .hasOutput (some s) = .returned (.flag b) s ∧ (b = true ↔ s.outq ≠ [])

/-- 60_exceptions.md R122: `PEEK(a)` fails on a negative address, else it returns the cell; nothing changes, in any
status. -/
def Obligations.PeekReadsWithoutChange : Prop :=
  ∀ (fuel : Nat) (s : State) (a : Int),
    (a < 0 → command fuel (.peek a) (some s) = .returned (.failed .negativeAddress) s) ∧
    (0 ≤ a → Config.width.holds a = true →
      command fuel (.peek a) (some s) = .returned (.word (s.mem.read a.toNat)) s)

/-- `GET_STATUS`, `GET_PC`, `GET_RB` and `GET_FAULT` return the registers and change nothing, and `STEP` returns the
status and the latch its step leaves (60_exceptions.md section 8). `GET_FAULT` is the spec's own decision D6, the
returned pair D20. -/
def Obligations.RegisterReadsAndStepReply : Prop :=
  ∀ (fuel : Nat) (s : State),
    command fuel .getStatus (some s) = .returned (.status s.status) s ∧
    command fuel .getPc (some s) = .returned (.word s.pc) s ∧
    command fuel .getRb (some s) = .returned (.word s.rb) s ∧
    command fuel .getFault (some s) = .returned (.fault s.fault) s ∧
    ∀ t, step s = .next t → command fuel .step (some s) = .returned (.ended t.status t.fault) t

/-- The commands `RUN` and `RUN_UNTIL_OUTPUT` return exactly at the first state, counted in steps, at which their loop
stops, and return the status and the latch of that state (60_exceptions.md section 8). Before the first step both stop
on a fault or HALTED; after a step `RUN` stops on a fault, HALTED or SUSPENDED_AWAITING_INPUT, and `RUN_UNTIL_OUTPUT` on
SUSPENDED_AFTER_OUTPUT as well. Neither is ever refused. The return of RUN_UNTIL_OUTPUT on a missing input is the spec's
own decision D13, the returned pair D20, the latch D6. That `fuel` counts the steps a command is given is the model's
choice, log entry 12. -/
def Obligations.RunReturnsAtTheFirstStop : Prop :=
  ∀ (c : Command) (stops : Status → Bool) (on : List Status),
    (c = .run ∧ stops = runStops ∧ on = [.halted, .suspendedAwaitingInput] ∨
      c = .runUntilOutput ∧ stops = outputStops ∧
        on = [.halted, .suspendedAfterOutput, .suspendedAwaitingInput]) →
    ∀ s t : State,
      let first := ∃ k, Host.Core.run Sys2Proof.core k s = .next t ∧ stopsAt on k t = true ∧
        ∀ j u, j < k → Host.Core.run Sys2Proof.core j s = .next u → stopsAt on j u = false
      (RunReturns stops s t ↔ first) ∧
      (∀ r, (∃ fuel, command fuel c (some s) = .returned r t) ↔ r = .ended t.status t.fault ∧ first) ∧
      ∀ fuel why, command fuel c (some s) ≠ .refused why

/-- A `RUN` that returns leaves a run that is over, a fault, or an engine waiting at an IN with no input: no other
end exists. A run that is over stays so (60_exceptions.md sections 8 and 9; the last is the spec's own decision D10). -/
def Obligations.RunEndsOverFaultedOrWaiting : Prop :=
  ∀ s t : State, RunReturns runStops s t →
    (t.isOver = true ∧ step t = .next t) ∨ t.fault ≠ none ∨
      (t.status = .suspendedAwaitingInput ∧ t.inq = [] ∧ ∃ d, fetch Config.width t = .ok (.inp d))

/-- At most one value is appended to `outq` per `RUN_UNTIL_OUTPUT`, and one exactly when the engine could run and the
command returns with SUSPENDED_AFTER_OUTPUT and no fault (60_exceptions.md section 8). -/
def Obligations.RunUntilOutputAppendsAtMostOne : Prop :=
  ∀ s t : State, RunReturns outputStops s t →
    (t.outq = s.outq ∨ ∃ v, t.outq = s.outq ++ [v]) ∧
    ((∃ v, t.outq = s.outq ++ [v]) ↔ s.runs = true ∧ t.status = .suspendedAfterOutput ∧ t.fault = none)

/-- `RUN` does not stop merely because output was produced: it goes on where `RUN_UNTIL_OUTPUT` returned after an
output, and ends where a `RUN` from there ends (60_exceptions.md section 8). -/
def Obligations.RunGoesOnPastOutput : Prop :=
  ∀ s t u : State, RunReturns outputStops s t → t.status = .suspendedAfterOutput →
    (RunReturns runStops t u ↔ RunReturns runStops s u)

/-- A step that changes nothing on a READY engine is a hang: neither run command ever returns, and no fault or halt
results (60_exceptions.md section 9). -/
def Obligations.UnchangingStepHangs : Prop :=
  ∀ s : State, s.runs = true → s.status = .ready → step s = .next s →
    RunHangs runStops s ∧ RunHangs outputStops s
end

