-- ==== Sys2Proof/Laws/Decode.lean ====
section
/-! SUPPORT. What the decoder accepts and how many cells it takes. -/

namespace Sys2Proof

/-- An opcode is the value of the two low digits that selects it, and no other value selects it. -/
theorem Opcode.ofNat?_eq_some {n : Nat} {op : Opcode} : Opcode.ofNat? n = some op ↔ n = op.code := by
  constructor
  · intro h
    unfold Opcode.ofNat? at h
    split at h <;> first | (cases h; rfl) | cases h
  · rintro rfl
    cases op <;> rfl

/-- The tests an accepted instruction word has passed, and the head it gives. -/
theorem decodeHead_eq_ok {I : Int} {h : Head} :
    decodeHead I = .ok h ↔
      0 ≤ I ∧ I.toNat % 100 = h.op.code ∧ hasIllegalMode h.op I.toNat = false ∧
      hasReservedDigit h.op I.toNat = false ∧ hasImmediateTarget h.op I.toNat = false ∧
      h.mode1 = Mode.ofDigit (modeDigit I.toNat 1) ∧ h.mode2 = Mode.ofDigit (modeDigit I.toNat 2) ∧
      h.mode3 = Mode.ofDigit (modeDigit I.toNat 3) := by
  unfold decodeHead
  by_cases hI : I < 0
  · simp [hI]
  · simp only [hI, if_false, ← Opcode.ofNat?_eq_some]
    cases ho : Opcode.ofNat? (I.toNat % 100) with
    | none => simp
    | some op =>
      obtain ⟨o, m1, m2, m3⟩ := h
      have hI' : 0 ≤ I := by omega
      simp only [Option.some.injEq]
      cases h1 : hasIllegalMode op I.toNat <;> cases h2 : hasReservedDigit op I.toNat <;>
        cases h3 : hasImmediateTarget op I.toNat <;>
        simp only [Bool.false_eq_true, if_false, if_true, reduceCtorEq, false_iff, not_and, Except.ok.injEq,
          Head.mk.injEq] <;>
        first
        | (constructor
           · rintro ⟨rfl, rfl, rfl, rfl⟩; exact ⟨hI', rfl, h1, h2, h3, rfl, rfl, rfl⟩
           · rintro ⟨-, rfl, -, -, -, h4, h5, h6⟩; exact ⟨rfl, h4.symm, h5.symm, h6.symm⟩)
        | (rintro - rfl; simp_all)

/-- The decoder on an instruction word and what stands after it. -/
theorem decode_cons (I : Int) (ps : List Int) :
    decode (I :: ps) = match decodeHead I with
      | .error e => .error e
      | .ok h => .ok (assemble h ps, ps.drop h.op.paramCount) := rfl

/-- What `decode` accepts. -/
theorem decode_eq_ok {cells rest : List Int} {i : Instr} :
    decode cells = .ok (i, rest) ↔
      ∃ h, decodeHead (cells.getD 0 0) = .ok h ∧ i = assemble h (cells.drop 1) ∧
        rest = cells.drop (h.op.paramCount + 1) := by
  unfold decode
  cases decodeHead (cells.getD 0 0) <;> simp [eq_comm]

@[simp] theorem length_add (a b : Source) (d : Target) : (Instr.add a b d).length = 4 := rfl
@[simp] theorem length_mul (a b : Source) (d : Target) : (Instr.mul a b d).length = 4 := rfl
@[simp] theorem length_inp (d : Target) : (Instr.inp d).length = 2 := rfl
@[simp] theorem length_out (a : Source) : (Instr.out a).length = 2 := rfl
@[simp] theorem length_jt (a t : Source) : (Instr.jt a t).length = 3 := rfl
@[simp] theorem length_jf (a t : Source) : (Instr.jf a t).length = 3 := rfl
@[simp] theorem length_lt (a b : Source) (d : Target) : (Instr.lt a b d).length = 4 := rfl
@[simp] theorem length_eq (a b : Source) (d : Target) : (Instr.eq a b d).length = 4 := rfl
@[simp] theorem length_arb (a : Source) : (Instr.arb a).length = 2 := rfl
@[simp] theorem length_hlt : Instr.hlt.length = 1 := rfl

@[simp] theorem Source.param_make (m : Mode) (p : Int) : (Source.make m p).param = p := by cases m <;> rfl
@[simp] theorem Target.param_make (m : Mode) (p : Int) : (Target.make m p).param = p := by cases m <;> rfl

/-- The length is the opcode's: one cell and its parameters (30_encoding.md R62). -/
theorem assemble_length (h : Head) (ps : List Int) : (assemble h ps).length = h.op.paramCount + 1 := by
  obtain ⟨op, m1, m2, m3⟩ := h
  cases op <;> rfl

/-- No more parameter cells than the opcode has are looked at. -/
theorem assemble_congr {h : Head} {ps qs : List Int} (e : ∀ k < h.op.paramCount, ps.getD k 0 = qs.getD k 0) :
    assemble h ps = assemble h qs := by
  obtain ⟨op, m1, m2, m3⟩ := h
  cases op <;> simp only [assemble, Opcode.paramCount] at e ⊢ <;>
    first
    | rfl
    | rw [e 0 (by omega), e 1 (by omega), e 2 (by omega)]
    | rw [e 0 (by omega), e 1 (by omega)]
    | rw [e 0 (by omega)]

/-- The parameter cells of an assembled instruction. -/
theorem assemble_params (h : Head) (ps : List Int) (hl : h.op.paramCount ≤ ps.length) :
    (assemble h ps).params = ps.take h.op.paramCount := by
  obtain ⟨op, m1, m2, m3⟩ := h
  match ps, hl with
  | [], hl => cases op <;> simp_all [assemble, Opcode.paramCount, Instr.params]
  | [p], hl => cases op <;> simp_all [assemble, Opcode.paramCount, Instr.params]
  | [p, q], hl => cases op <;> simp_all [assemble, Opcode.paramCount, Instr.params]
  | p :: q :: r :: ps, hl => cases op <;> simp_all [assemble, Opcode.paramCount, Instr.params]

/-- A legal mode digit of a source is the digit of its mode. -/
theorem Source.modeCode_make {m : Nat} (h : m ≤ 2) (p : Int) : (Source.make (Mode.ofDigit m) p).modeCode = m := by
  interval_cases m <;> rfl

/-- A legal mode digit of a write target is the digit of its mode. -/
theorem Target.modeCode_make {m : Nat} (h : m ≤ 2) (h1 : m ≠ 1) (p : Int) :
    (Target.make (Mode.ofDigit m) p).modeCode = m := by
  interval_cases m <;> first | rfl | omega

/-- A number is its five low decimal digits and what is above them (30_encoding.md R51). -/
theorem digits_sum (n : Nat) :
    n = n % 100 + 100 * modeDigit n 1 + 1000 * modeDigit n 2 + 10000 * modeDigit n 3 + 100000 * highDigits n := by
  simp only [modeDigit, digit, highDigits]
  norm_num
  omega

/-- Every mode digit of a parameter the instruction has is legal (30_encoding.md R58). -/
theorem hasIllegalMode_eq_false {op : Opcode} {v : Nat} :
    hasIllegalMode op v = false ↔
      (1 ≤ op.paramCount → modeDigit v 1 ≤ 2) ∧ (2 ≤ op.paramCount → modeDigit v 2 ≤ 2) ∧
      (3 ≤ op.paramCount → modeDigit v 3 ≤ 2) := by
  simp [hasIllegalMode]

/-- Every digit that must be 0 is (30_encoding.md R60). -/
theorem hasReservedDigit_eq_false {op : Opcode} {v : Nat} :
    hasReservedDigit op v = false ↔
      (op.paramCount < 1 → modeDigit v 1 = 0) ∧ (op.paramCount < 2 → modeDigit v 2 = 0) ∧
      (op.paramCount < 3 → modeDigit v 3 = 0) ∧ highDigits v = 0 := by
  simp [hasReservedDigit]
  tauto

/-- The write target, if any, is not in immediate mode (30_encoding.md R59). -/
theorem hasImmediateTarget_eq_false {op : Opcode} {v : Nat} :
    hasImmediateTarget op v = false ↔ ∀ k, op.target? = some k → modeDigit v k ≠ 1 := by
  unfold hasImmediateTarget
  cases op.target? <;> simp

/-- An accepted instruction word is the word of the instruction it gives. -/
theorem headWord_assemble {I : Int} {h : Head} (hd : decodeHead I = .ok h) (ps : List Int) :
    (assemble h ps).headWord = I := by
  obtain ⟨op, a1, a2, a3⟩ := h
  obtain ⟨h0, hc, h1, h2, h3, rfl, rfl, rfl⟩ := decodeHead_eq_ok.mp hd
  obtain ⟨n, rfl⟩ := Int.eq_ofNat_of_zero_le h0
  simp only [Int.toNat_natCast] at *
  have hx := digits_sum n
  rw [hc] at hx
  rw [hasIllegalMode_eq_false] at h1
  rw [hasReservedDigit_eq_false] at h2
  rw [hasImmediateTarget_eq_false] at h3
  clear hd hc h0
  cases op <;> simp only [Opcode.paramCount, Opcode.target?, Opcode.code] at h1 h2 h3 hx <;>
    simp only [assemble, Instr.headWord, headWord] <;>
    repeat rw [Source.modeCode_make (by omega)]
  all_goals try rw [Target.modeCode_make (by omega) (h3 _ rfl)]
  all_goals
    simp only [Int.ofNat_eq_natCast]
    omega

end Sys2Proof
end

