-- ==== Sys2Proof/Laws/Memory.lean ====
section
/-! SUPPORT. The laws of memory: a read after a write, the canonical form, what an image reads as. -/

namespace Sys2Proof.Machine

/-- A write leaves every other cell alone, in any list. -/
theorem Memory.read_write_other (m : Memory) {a b : Nat} (v : Int) (h : b ≠ a) :
    (m.write a v).read b = m.read b := by
  induction m with
  | nil => unfold Memory.write; split <;> simp [Memory.read, h]
  | cons c m ih =>
    obtain ⟨k, u⟩ := c
    unfold Memory.write
    split_ifs with h1 h2 h3 h4 <;> simp_all [Memory.read]

/-- No entry stands below the bound of the canonical form. -/
theorem Memory.read_below {m : Memory} {lo a : Nat} (hw : Memory.wfFrom lo m = true) (h : a < lo) :
    m.read a = 0 := by
  induction m generalizing lo with
  | nil => rfl
  | cons c m ih =>
    obtain ⟨k, u⟩ := c
    simp only [Memory.wfFrom, Bool.and_eq_true, decide_eq_true_eq] at hw
    rw [Memory.read, if_neg (by omega)]
    exact ih hw.2 (by omega)

/-- A read after a write of the same cell gives the Word written. -/
theorem Memory.read_write_same_from {m : Memory} {lo : Nat} (hw : Memory.wfFrom lo m = true) (a : Nat) (v : Int) :
    (m.write a v).read a = v := by
  induction m generalizing lo with
  | nil => unfold Memory.write; split <;> simp_all [Memory.read]
  | cons c m ih =>
    obtain ⟨k, u⟩ := c
    simp only [Memory.wfFrom, Bool.and_eq_true, decide_eq_true_eq] at hw
    unfold Memory.write
    split_ifs with h1 h2 h3 h4
    · rw [Memory.read, if_neg (by omega), h2]; exact Memory.read_below hw.2 (by omega)
    · simp [Memory.read]
    · rw [h4]; exact Memory.read_below hw.2 (by omega)
    · simp [Memory.read]
    · rw [Memory.read, if_neg h3]; exact ih hw.2

theorem Memory.read_write_same {m : Memory} (hw : m.wf = true) (a : Nat) (v : Int) :
    (m.write a v).read a = v := Memory.read_write_same_from hw a v

/-- Read after write, both cases. -/
theorem Memory.read_write {m : Memory} (hw : m.wf = true) (a b : Nat) (v : Int) :
    (m.write a v).read b = if b = a then v else m.read b := by
  split_ifs with h
  · rw [h]; exact Memory.read_write_same hw a v
  · exact Memory.read_write_other m v h

/-- A lower bound may be lowered. -/
theorem Memory.wfFrom_mono {m : Memory} {lo lo' : Nat} (hw : Memory.wfFrom lo m = true) (h : lo' ≤ lo) :
    Memory.wfFrom lo' m = true := by
  cases m with
  | nil => rfl
  | cons c m =>
    simp only [Memory.wfFrom, Bool.and_eq_true, decide_eq_true_eq] at hw ⊢
    exact ⟨⟨by omega, hw.1.2⟩, hw.2⟩

/-- A write at or above the bound keeps the canonical form. -/
theorem Memory.write_wfFrom {m : Memory} {lo a : Nat} (v : Int) (hw : Memory.wfFrom lo m = true) (h : lo ≤ a) :
    Memory.wfFrom lo (m.write a v) = true := by
  induction m generalizing lo with
  | nil => unfold Memory.write; split <;> simp_all [Memory.wfFrom]
  | cons c m ih =>
    obtain ⟨k, u⟩ := c
    have hk := hw
    simp only [Memory.wfFrom, Bool.and_eq_true, decide_eq_true_eq] at hk
    unfold Memory.write
    split_ifs with h1 h2 h3 h4
    · exact hw
    · simp only [Memory.wfFrom, Bool.and_eq_true, decide_eq_true_eq]
      exact ⟨⟨h, h2⟩, ⟨by omega, hk.1.2⟩, hk.2⟩
    · exact Memory.wfFrom_mono hk.2 (by omega)
    · simp only [Memory.wfFrom, Bool.and_eq_true, decide_eq_true_eq]
      exact ⟨⟨h, h4⟩, h3 ▸ hk.2⟩
    · simp only [Memory.wfFrom, Bool.and_eq_true, decide_eq_true_eq]
      exact ⟨hk.1, ih hk.2 (by omega)⟩

/-- A write keeps the canonical form. -/
theorem Memory.write_wf {m : Memory} (a : Nat) (v : Int) (hw : m.wf = true) : (m.write a v).wf = true :=
  Memory.write_wfFrom v hw (Nat.zero_le a)

/-- Below every entry a write puts its entry in front. -/
theorem Memory.write_below {m : Memory} {lo a : Nat} (hw : Memory.wfFrom lo m = true) (h : a < lo) (v : Int) :
    m.write a v = if v = 0 then m else (a, v) :: m := by
  cases m with
  | nil => rfl
  | cons c m =>
    simp only [Memory.wfFrom, Bool.and_eq_true, decide_eq_true_eq] at hw
    simp [Memory.write, show a < c.1 by omega]

/-- Repeated writes to one cell overwrite (20_memory.md R33). -/
theorem Memory.write_write {m : Memory} {lo : Nat} (hw : Memory.wfFrom lo m = true) (a : Nat) (v u : Int) :
    (m.write a v).write a u = m.write a u := by
  induction m generalizing lo with
  | nil => by_cases hv : v = 0 <;> by_cases hu : u = 0 <;> simp [Memory.write, hv, hu]
  | cons c m ih =>
    obtain ⟨k, x⟩ := c
    simp only [Memory.wfFrom, Bool.and_eq_true, decide_eq_true_eq] at hw
    by_cases h1 : a < k
    · by_cases hv : v = 0 <;> by_cases hu : u = 0 <;> simp [Memory.write, hv, hu, h1]
    · by_cases h2 : a = k
      · subst h2
        by_cases hv : v = 0
        · simp only [Memory.write, h1, if_false, hv, if_true]
          exact Memory.write_below hw.2 (Nat.lt_succ_self a) u
        · simp [Memory.write, hv]
      · simp only [Memory.write, h1, h2, if_false]
        rw [ih hw.2]

/-- Every entry after a write is the one written or an old one. -/
theorem Memory.mem_write {m : Memory} {a : Nat} {v : Int} {c : Nat × Int} (h : c ∈ m.write a v) :
    c = (a, v) ∨ c ∈ m := by
  induction m with
  | nil => unfold Memory.write at h; split at h <;> simp_all
  | cons d m ih =>
    obtain ⟨k, u⟩ := d
    unfold Memory.write at h
    split_ifs at h with h1 h2 h3 h4 <;> simp only [List.mem_cons] at h ⊢ <;> tauto

/-- A read gives 0 or the Word of an entry. -/
theorem Memory.read_eq_zero_or_mem (m : Memory) (a : Nat) : m.read a = 0 ∨ (a, m.read a) ∈ m := by
  induction m with
  | nil => exact .inl rfl
  | cons c m ih =>
    obtain ⟨k, u⟩ := c
    unfold Memory.read
    split_ifs with h
    · exact .inr (by simp [h])
    · exact ih.imp id (List.mem_cons_of_mem _)

/-- An image is in canonical form. -/
theorem Memory.imageFrom_wfFrom (a : Nat) (vs : List Int) : Memory.wfFrom a (Memory.imageFrom a vs) = true := by
  induction vs generalizing a with
  | nil => rfl
  | cons v vs ih =>
    unfold Memory.imageFrom
    split_ifs with h
    · exact Memory.wfFrom_mono (ih (a + 1)) (Nat.le_succ a)
    · simp only [Memory.wfFrom, Bool.and_eq_true, decide_eq_true_eq]
      exact ⟨⟨le_refl a, h⟩, ih (a + 1)⟩

theorem Memory.imageFrom_wf (vs : List Int) : (Memory.imageFrom 0 vs).wf = true := Memory.imageFrom_wfFrom 0 vs

/-- Writing a list of cells keeps the canonical form. -/
theorem Memory.writeAll_wf {m : Memory} (a : Nat) (vs : List Int) (hw : m.wf = true) :
    (m.writeAll a vs).wf = true := by
  induction vs generalizing m a with
  | nil => exact hw
  | cons v vs ih => exact ih (a + 1) (Memory.write_wf a v hw)

/-- Writing a list of cells from `a` on leaves the cells below `a` alone. -/
theorem Memory.read_writeAll_below (m : Memory) {a b : Nat} (vs : List Int) (h : b < a) :
    (m.writeAll a vs).read b = m.read b := by
  induction vs generalizing m a with
  | nil => rfl
  | cons v vs ih =>
    rw [Memory.writeAll, ih _ (by omega), Memory.read_write_other _ _ (by omega)]

/-- `n` cells from an address are `n` Words. -/
@[simp] theorem Memory.cells_length (m : Memory) (a n : Nat) : (m.cells a n).length = n := by
  induction n generalizing a with
  | zero => rfl
  | succ n ih => simp [Memory.cells, ih]

/-- An image read back: its Words from `a` on, 0 elsewhere (70_reset_and_hazards.md R130). -/
theorem Memory.read_imageFrom (a : Nat) (vs : List Int) (b : Nat) :
    (Memory.imageFrom a vs).read b = if a ≤ b then vs.getD (b - a) 0 else 0 := by
  induction vs generalizing a with
  | nil => simp [Memory.imageFrom, Memory.read]
  | cons v vs ih =>
    have later (h : a + 1 ≤ b) : (v :: vs).getD (b - a) 0 = vs.getD (b - (a + 1)) 0 := by
      obtain ⟨k, rfl⟩ := Nat.exists_eq_add_of_le h
      rw [show a + 1 + k - a = k + 1 by omega, show a + 1 + k - (a + 1) = k by omega]
      rfl
    rcases Nat.lt_trichotomy b a with h | rfl | h
    · unfold Memory.imageFrom
      split <;> simp [Memory.read, ih, show ¬ a ≤ b by omega, show ¬ a + 1 ≤ b by omega, show b ≠ a by omega]
    · unfold Memory.imageFrom
      split <;> simp_all [Memory.read]
    · unfold Memory.imageFrom
      rw [if_pos (show a ≤ b by omega), later h]
      split <;> simp [Memory.read, ih, show a + 1 ≤ b by omega, show b ≠ a by omega]

end Sys2Proof.Machine
end

