-- ==== Sys2Proof/Laws/State.lean ====
section
/-! SUPPORT. What each named update of the state leaves in each field, and what the end of an instruction answers. -/

namespace Sys2Proof.Machine

@[simp] theorem State.takeFault_pc (s : State) (f : FaultRecord) : (s.takeFault f).pc = s.pc := rfl
@[simp] theorem State.takeFault_rb (s : State) (f : FaultRecord) : (s.takeFault f).rb = s.rb := rfl
@[simp] theorem State.takeFault_status (s : State) (f : FaultRecord) : (s.takeFault f).status = s.status := rfl
@[simp] theorem State.takeFault_fault (s : State) (f : FaultRecord) : (s.takeFault f).fault = some f := rfl
@[simp] theorem State.takeFault_mem (s : State) (f : FaultRecord) : (s.takeFault f).mem = s.mem := rfl
@[simp] theorem State.takeFault_inq (s : State) (f : FaultRecord) : (s.takeFault f).inq = s.inq := rfl
@[simp] theorem State.takeFault_outq (s : State) (f : FaultRecord) : (s.takeFault f).outq = s.outq := rfl

@[simp] theorem State.pushInput_pc (s : State) (v : Int) : (s.pushInput v).pc = s.pc := rfl
@[simp] theorem State.pushInput_rb (s : State) (v : Int) : (s.pushInput v).rb = s.rb := rfl
@[simp] theorem State.pushInput_status (s : State) (v : Int) : (s.pushInput v).status = s.status := rfl
@[simp] theorem State.pushInput_fault (s : State) (v : Int) : (s.pushInput v).fault = s.fault := rfl
@[simp] theorem State.pushInput_mem (s : State) (v : Int) : (s.pushInput v).mem = s.mem := rfl
@[simp] theorem State.pushInput_inq (s : State) (v : Int) : (s.pushInput v).inq = s.inq ++ [v] := rfl
@[simp] theorem State.pushInput_outq (s : State) (v : Int) : (s.pushInput v).outq = s.outq := rfl

@[simp] theorem State.load_pc (p : List Int) : (State.load p).pc = 0 := rfl
@[simp] theorem State.load_rb (p : List Int) : (State.load p).rb = 0 := rfl
@[simp] theorem State.load_status (p : List Int) : (State.load p).status = .ready := rfl
@[simp] theorem State.load_fault (p : List Int) : (State.load p).fault = none := rfl
@[simp] theorem State.load_mem (p : List Int) : (State.load p).mem = Memory.imageFrom 0 p := rfl
@[simp] theorem State.load_inq (p : List Int) : (State.load p).inq = [] := rfl
@[simp] theorem State.load_outq (p : List Int) : (State.load p).outq = [] := rfl

@[simp] theorem State.settle_ok (s t : State) : s.settle (.ok t) = .next t := rfl
@[simp] theorem State.settle_error (s : State) (f : FaultRecord) : s.settle (.error f) = .next (s.takeFault f) := rfl

/-- An instruction always answers a next state: its committed state, or the fault taken before it. -/
theorem State.settle_eq_next {s t : State} {r : Except FaultRecord State} :
    s.settle r = .next t ↔ r = .ok t ∨ ∃ f, r = .error f ∧ t = s.takeFault f := by
  cases r <;> simp [eq_comm]

/-- The engine runs exactly when no fault is latched and it is not halted. -/
theorem State.runs_iff (s : State) : s.runs = true ↔ s.fault = none ∧ s.status ≠ .halted := by
  simp [State.runs, Option.isNone_iff_eq_none]

/-- A fault latched stops the engine. -/
@[simp] theorem State.takeFault_runs (s : State) (f : FaultRecord) : (s.takeFault f).runs = false := rfl

end Sys2Proof.Machine
end

