-- ==== Sys2Proof/Laws/Operands.lean ====
section
/-! SUPPORT. One lemma for each check and each operand form: when it answers, what it answers, and the fault it
raises otherwise, in the terms of Safety. -/

namespace Sys2Proof.Machine

/-! ### Tests in order -/

@[simp] theorem firstFault_nil : firstFault [] = none := rfl

theorem firstFault_append (l m : List FaultTest) :
    firstFault (l ++ m) = (firstFault l).or (firstFault m) := by
  induction l with
  | nil => simp
  | cons c l ih => obtain ⟨b, f⟩ := c; cases b <;> simp [firstFault, ih]

theorem firstFault_append_eq_none {l m : List FaultTest} :
    firstFault (l ++ m) = none ↔ firstFault l = none ∧ firstFault m = none := by
  rw [firstFault_append]
  cases firstFault l <;> simp

theorem firstFault_append_eq_some {l m : List FaultTest} {f : FaultRecord} (h : firstFault (l ++ m) = some f) :
    firstFault l = some f ∨ firstFault m = some f := by
  rw [firstFault_append] at h
  cases hl : firstFault l with
  | none => rw [hl] at h; exact .inr h
  | some g => rw [hl] at h; exact .inl h

theorem firstFault_outOfRange (w : Width) (v : Int) (l : List FaultTest) :
    firstFault (outOfRange w v :: l) = if w.holds v then firstFault l else some ⟨.arithmeticOverflow, 0⟩ := by
  cases h : w.holds v <;> simp [outOfRange, firstFault, h]

theorem firstFault_isNegative (a : Int) (l : List FaultTest) :
    firstFault (isNegative a :: l) = if a < 0 then some ⟨.negativeAddress, a⟩ else firstFault l := by
  simp [isNegative, firstFault]

/-- A fault reported is that of a test that holds. -/
theorem firstFault_mem {l : List FaultTest} {f : FaultRecord} (h : firstFault l = some f) : (true, f) ∈ l := by
  induction l with
  | nil => cases h
  | cons c l ih =>
    obtain ⟨b, g⟩ := c
    cases b
    · exact List.mem_cons_of_mem _ (ih h)
    · cases h; exact List.mem_cons_self

/-- A check with a value: the first fault of its tests, or the value. -/
def guarded {α : Type} (l : List FaultTest) (v : α) : Except FaultRecord α :=
  match firstFault l with
  | some f => .error f
  | none => .ok v

theorem guarded_eq_ok {α : Type} {l : List FaultTest} {v u : α} :
    guarded l v = .ok u ↔ firstFault l = none ∧ v = u := by
  unfold guarded; cases firstFault l <;> simp

theorem guarded_eq_error {α : Type} {l : List FaultTest} {v : α} {f : FaultRecord} :
    guarded l v = .error f ↔ firstFault l = some f := by
  unfold guarded; cases firstFault l <;> simp

/-- Guarded checks in sequence test the first list, then the second. -/
theorem guarded_bind {α β : Type} (l : List FaultTest) (v : α) (m : α → List FaultTest) (g : α → β) :
    (guarded l v >>= fun x => guarded (m x) (g x)) = guarded (l ++ m v) (g v) := by
  unfold guarded
  rw [firstFault_append]
  cases firstFault l <;> rfl

theorem guarded_bind_pure {α β : Type} (l : List FaultTest) (v : α) (g : α → β) :
    (guarded l v >>= fun x => (pure (g x) : Except FaultRecord β)) = guarded l (g v) := by
  unfold guarded
  cases firstFault l <;> rfl

/-! ### The checks -/

theorem checked_eq_guarded (w : Width) (v : Int) : checked w v = guarded [outOfRange w v] v := by
  unfold checked guarded outOfRange firstFault
  cases w.holds v <;> rfl

theorem address_eq_guarded (a : Int) : address a = guarded [isNegative a] a.toNat := by
  unfold address guarded isNegative firstFault
  by_cases h : a < 0 <;> simp [h]

theorem relativeAddress_eq_guarded (w : Width) (s : State) (p : Int) :
    relativeAddress w s p = guarded [outOfRange w (s.rb + p), isNegative (s.rb + p)] (s.rb + p).toNat := by
  unfold relativeAddress
  simp only [checked_eq_guarded, address_eq_guarded]
  exact guarded_bind _ _ (fun x => [isNegative x]) _

theorem advance_eq_guarded (w : Width) (s : State) (n : Nat) :
    advance w s n = guarded [outOfRange w (s.pc + Int.ofNat n)] (s.pc + Int.ofNat n) :=
  checked_eq_guarded w _

/-- A source parameter: its tests, then its value (20_memory.md R35, R38). -/
theorem readOperand_eq_guarded (w : Width) (s : State) (a : Source) :
    readOperand w s a = guarded (sourceTests w s a) (sourceValue s a) := by
  cases a with
  | position p =>
    simp only [readOperand, memRead, address_eq_guarded]
    exact guarded_bind_pure _ _ _
  | immediate p => rfl
  | relative p =>
    simp only [readOperand, relativeAddress_eq_guarded]
    exact guarded_bind_pure _ _ _

/-- A write target: its tests, then its address (20_memory.md R35, R39). -/
theorem writeTarget_eq_guarded (w : Width) (s : State) (d : Target) :
    writeTarget w s d = guarded (targetTests w s d) (targetAddress s d).toNat := by
  cases d with
  | position p => exact address_eq_guarded p
  | relative p => exact relativeAddress_eq_guarded w s p

/-- A resolved target is not negative. -/
theorem targetAddress_nonneg {w : Width} {s : State} {d : Target} (h : firstFault (targetTests w s d) = none) :
    0 ≤ targetAddress s d := by
  cases d <;> simp only [targetTests, targetAddress, firstFault, outOfRange, isNegative] at h ⊢ <;>
    split_ifs at h <;> simp_all

/-! ### The shared instruction shapes -/

/-- ADD, MUL, LT, EQ with a result checked by tests of its own. -/
theorem storeResult_eq_guarded (w : Width) (f : Int → Int → Except FaultRecord Int)
    (tests : Int → Int → List FaultTest) (r : Int → Int → Int)
    (hf : ∀ x y, f x y = guarded (tests x y) (r x y)) (a b : Source) (d : Target) (s : State) :
    storeResult w f a b d s =
      guarded (sourceTests w s a ++ sourceTests w s b ++ targetTests w s d ++
          (tests (sourceValue s a) (sourceValue s b) ++ [outOfRange w (s.pc + 4)]))
        { s with
          mem := s.mem.write (targetAddress s d).toNat (r (sourceValue s a) (sourceValue s b))
          pc := s.pc + 4
          status := .ready } := by
  unfold storeResult
  simp only [readOperand_eq_guarded, writeTarget_eq_guarded, hf, advance_eq_guarded, guarded, firstFault_append]
  cases firstFault (sourceTests w s a) <;> cases firstFault (sourceTests w s b) <;>
    cases firstFault (targetTests w s d) <;> try rfl
  simp only [Except.bind, bind, Option.or]
  cases firstFault (tests (sourceValue s a) (sourceValue s b)) <;> try rfl
  cases h : firstFault [outOfRange w (s.pc + Int.ofNat 4)] <;> rfl

/-- JT and JF. -/
theorem jumpWhen_eq_guarded (w : Width) (test : Int → Bool) (a t : Source) (s : State) :
    jumpWhen w test a t s =
      guarded (sourceTests w s a ++ sourceTests w s t ++ [outOfRange w (s.pc + 3)])
        { s with pc := if test (sourceValue s a) then sourceValue s t else s.pc + 3, status := .ready } := by
  unfold jumpWhen
  simp only [readOperand_eq_guarded, advance_eq_guarded, guarded, firstFault_append]
  cases firstFault (sourceTests w s a) <;> cases firstFault (sourceTests w s t) <;> try rfl
  cases firstFault [outOfRange w (s.pc + Int.ofNat 3)] <;> rfl

end Sys2Proof.Machine
end

