-- ==== Sys2Proof/Laws/Exec.lean ====
section
/-! SUPPORT. What an instruction and a step can do, said once: the tests of Safety in order, then the committed
state. Every later proof starts from these and unfolds no meaning. -/

namespace Sys2Proof.Machine

/-- The state an instruction commits when no test of its own finds a fault: the commit phase of its rule. -/
def committed (s : State) : Instr → State
  | .add a b d => { s with
      mem := s.mem.write (targetAddress s d).toNat (sourceValue s a + sourceValue s b)
      pc := s.pc + 4, status := .ready }
  | .mul a b d => { s with
      mem := s.mem.write (targetAddress s d).toNat (sourceValue s a * sourceValue s b)
      pc := s.pc + 4, status := .ready }
  | .inp d =>
    match s.inq with
    | [] => { s with status := .suspendedAwaitingInput }
    | v :: rest => { s with
        mem := s.mem.write (targetAddress s d).toNat v, inq := rest, pc := s.pc + 2, status := .ready }
  | .out a => { s with outq := s.outq ++ [sourceValue s a], pc := s.pc + 2, status := .suspendedAfterOutput }
  | .jt a t => { s with
      pc := if isNonZero (sourceValue s a) then sourceValue s t else s.pc + 3, status := .ready }
  | .jf a t => { s with
      pc := if isZero (sourceValue s a) then sourceValue s t else s.pc + 3, status := .ready }
  | .lt a b d => { s with
      mem := s.mem.write (targetAddress s d).toNat (truthWord (isLess (sourceValue s a) (sourceValue s b)))
      pc := s.pc + 4, status := .ready }
  | .eq a b d => { s with
      mem := s.mem.write (targetAddress s d).toNat (truthWord (isEqual (sourceValue s a) (sourceValue s b)))
      pc := s.pc + 4, status := .ready }
  | .arb a => { s with rb := s.rb + sourceValue s a, pc := s.pc + 2, status := .ready }
  | .hlt => { s with status := .halted }

/-- Every instruction's effect is its tests in order, then its committed state. -/
theorem effect_eq_guarded (w : Width) (i : Instr) (s : State) :
    effect w i s = guarded (instrTests w s i) (committed s i) := by
  cases i with
  | add a b d =>
    exact storeResult_eq_guarded w _ (fun x y => [outOfRange w (x + y)]) (· + ·)
      (fun x y => checked_eq_guarded w (x + y)) a b d s
  | mul a b d =>
    exact storeResult_eq_guarded w _ (fun x y => [outOfRange w (x * y)]) (· * ·)
      (fun x y => checked_eq_guarded w (x * y)) a b d s
  | lt a b d =>
    exact storeResult_eq_guarded w _ (fun _ _ => []) (fun x y => truthWord (isLess x y))
      (fun _ _ => rfl) a b d s
  | eq a b d =>
    exact storeResult_eq_guarded w _ (fun _ _ => []) (fun x y => truthWord (isEqual x y))
      (fun _ _ => rfl) a b d s
  | jt a t => exact jumpWhen_eq_guarded w isNonZero a t s
  | jf a t => exact jumpWhen_eq_guarded w isZero a t s
  | hlt => rfl
  | inp d =>
    simp only [effect, inpEffect, writeTarget_eq_guarded, advance_eq_guarded, guarded, instrTests, committed,
      firstFault_append]
    cases firstFault (targetTests w s d) <;> try rfl
    cases firstFault [outOfRange w (s.pc + Int.ofNat 2)] <;> try rfl
    cases s.inq <;> rfl
  | out a =>
    simp only [effect, outEffect, readOperand_eq_guarded, advance_eq_guarded, guarded, instrTests, committed,
      firstFault_append]
    cases firstFault (sourceTests w s a) <;> try rfl
    cases firstFault [outOfRange w (s.pc + Int.ofNat 2)] <;> rfl
  | arb a =>
    have ht : instrTests w s (.arb a) =
        sourceTests w s a ++ ([outOfRange w (s.rb + sourceValue s a)] ++ [outOfRange w (s.pc + 2)]) := rfl
    simp only [effect, arbEffect, readOperand_eq_guarded, checked_eq_guarded, advance_eq_guarded, guarded, ht,
      committed, firstFault_append]
    cases firstFault (sourceTests w s a) <;> try rfl
    cases h : firstFault [outOfRange w (s.rb + sourceValue s a)] <;>
      simp only [Except.bind, bind, Option.or, h]
    cases firstFault [outOfRange w (s.pc + Int.ofNat 2)] <;> rfl

/-- `exec` is the effect at the default width, ended by `settle`. -/
theorem exec_eq_settle (i : Instr) (s : State) : exec i s = s.settle (effect Config.width i s) := by
  cases i <;> rfl

/-- What `exec` answers, said once: the committed state when no test finds a fault, else the first fault taken. -/
theorem exec_eq (i : Instr) (s : State) :
    exec i s = match firstFault (instrTests Config.width s i) with
      | none => .next (committed s i)
      | some f => .next (s.takeFault f) := by
  rw [exec_eq_settle, effect_eq_guarded, guarded]
  cases firstFault (instrTests Config.width s i) <;> rfl

/-- `exec` always answers a next state: the committed one or a fault taken. -/
theorem exec_cases {i : Instr} {s t : State} (h : exec i s = .next t) :
    (firstFault (instrTests Config.width s i) = none ∧ t = committed s i) ∨
      ∃ f, firstFault (instrTests Config.width s i) = some f ∧ t = s.takeFault f := by
  rw [exec_eq] at h
  cases hf : firstFault (instrTests Config.width s i) with
  | none => rw [hf] at h; exact .inl ⟨rfl, (Host.Outcome.next.inj h).symm⟩
  | some f => rw [hf] at h; exact .inr ⟨f, rfl, (Host.Outcome.next.inj h).symm⟩

/-- What an instruction that stores commits, and that its target is an address and its new `pc` a Word. -/
theorem committed_of_storeOf {s : State} {i : Instr} {d : Target} {v : Int} (h : storeOf s i = some (d, v)) :
    (committed s i).mem = s.mem.write (targetAddress s d).toNat v ∧
      (committed s i).pc = s.pc + Int.ofNat i.length ∧ (committed s i).status = .ready ∧
      ∀ w, firstFault (instrTests w s i) = none →
        0 ≤ targetAddress s d ∧ w.holds (s.pc + Int.ofNat i.length) = true := by
  have last {w : Width} {v : Int} (hv : firstFault [outOfRange w v] = none) : w.holds v = true := by
    cases e : w.holds v <;> simp_all [firstFault, outOfRange]
  have pass {w : Width} {x y : Int} (hv : firstFault [outOfRange w x, outOfRange w y] = none) : w.holds y = true :=
    last (firstFault_append_eq_none (l := [outOfRange w x]).mp hv).2
  cases i <;> simp only [storeOf, reduceCtorEq, Option.some.injEq, Prod.mk.injEq, Option.map_eq_some_iff] at h
  case inp e =>
    obtain ⟨u, hu, rfl, rfl⟩ := h
    obtain ⟨rest, hq⟩ := List.head?_eq_some_iff.mp hu
    refine ⟨by simp [committed, hq], by simp [committed, hq, Instr.length, Instr.params], by simp [committed, hq],
      fun w hw => ?_⟩
    have hw := firstFault_append_eq_none.mp hw
    exact ⟨targetAddress_nonneg hw.1, last hw.2⟩
  all_goals
    obtain ⟨rfl, rfl⟩ := h
    refine ⟨?_, rfl, rfl, fun w hw => ?_⟩
    · simp [committed, truthWord, isLess, isEqual]
    · have hw := firstFault_append_eq_none.mp hw
      exact ⟨targetAddress_nonneg (firstFault_append_eq_none.mp hw.1).2, by first | exact pass hw.2 | exact last hw.2⟩

/-- `step` is `stepAt` at the default width. -/
theorem step_eq_stepAt (s : State) : step s = .next (stepAt Config.width s) := by
  unfold step stepAt attempt
  split
  · cases h : fetch Config.width s with
    | error f => rfl
    | ok i =>
      simp only [exec_eq_settle, bind, Except.bind]
      cases effect Config.width i s <;> rfl
  · rfl

/-- What a step can do, said once, at every width. -/
theorem stepAt_cases (w : Width) (s : State) :
    (s.runs = false ∧ stepAt w s = s) ∨
    (s.runs = true ∧ ∃ f, fetch w s = .error f ∧ stepAt w s = s.takeFault f) ∨
    (s.runs = true ∧ ∃ i f, fetch w s = .ok i ∧ firstFault (instrTests w s i) = some f ∧ stepAt w s = s.takeFault f) ∨
    (s.runs = true ∧ ∃ i, fetch w s = .ok i ∧ firstFault (instrTests w s i) = none ∧ stepAt w s = committed s i) := by
  unfold stepAt attempt
  cases hr : s.runs
  · simp
  · cases hf : fetch w s with
    | error f => simp [bind, Except.bind]
    | ok i =>
      simp only [bind, Except.bind, effect_eq_guarded, guarded]
      cases ht : firstFault (instrTests w s i) <;> simp [ht]

/-- A committed state keeps the fault latch. -/
@[simp] theorem committed_fault (s : State) (i : Instr) : (committed s i).fault = s.fault := by
  cases i <;> try rfl
  simp only [committed]; split <;> rfl

/-- A committed state keeps `rb` unless the instruction is ARB. -/
theorem committed_rb {s : State} {i : Instr} (h : ∀ a, i ≠ .arb a) : (committed s i).rb = s.rb := by
  cases i with
  | arb a => exact absurd rfl (h a)
  | inp d => simp only [committed]; split <;> rfl
  | _ => rfl

/-- A committed state keeps `inq` unless the instruction is IN. -/
theorem committed_inq {s : State} {i : Instr} (h : ∀ d, i ≠ .inp d) : (committed s i).inq = s.inq := by
  cases i with
  | inp d => exact absurd rfl (h d)
  | _ => rfl

/-- A committed state keeps `outq` unless the instruction is OUT. -/
theorem committed_outq {s : State} {i : Instr} (h : ∀ a, i ≠ .out a) : (committed s i).outq = s.outq := by
  cases i with
  | out a => exact absurd rfl (h a)
  | inp d => simp only [committed]; split <;> rfl
  | _ => rfl

/-- The tests of an instruction read `pc`, `rb` and memory alone. -/
theorem instrTests_congr {w : Width} {s t : State} (hpc : t.pc = s.pc) (hrb : t.rb = s.rb) (hm : t.mem = s.mem)
    (i : Instr) : instrTests w t i = instrTests w s i := by
  have hv : ∀ a, sourceValue t a = sourceValue s a := fun a => by cases a <;> simp only [sourceValue, hm, hrb]
  have ht : ∀ a, sourceTests w t a = sourceTests w s a := fun a => by cases a <;> simp only [sourceTests, hrb]
  have hd : ∀ d, targetTests w t d = targetTests w s d := fun d => by cases d <;> simp only [targetTests, hrb]
  cases i <;> simp only [instrTests, hv, ht, hd, hpc, hrb]

end Sys2Proof.Machine
end

