-- ==== Sys2Proof/Laws/Fetch.lean ====
section
/-! SUPPORT. What a fetch can do, said once, and its agreement with the decoder on the cells at `pc`. -/

namespace Sys2Proof.Machine

/-- A read at a non-negative address never faults (20_memory.md R32). -/
theorem memRead_of_nonneg (m : Memory) {a : Int} (h : 0 ≤ a) : memRead m a = .ok (m.read a.toNat) := by
  simp [memRead, address, Int.not_lt.mpr h, bind, Except.bind, pure, Except.pure]

/-- The parameter cells in reach and the tests that put them there. -/
theorem fetchParams_eq_guarded (w : Width) (s : State) (hpc : 0 ≤ s.pc) (n k : Nat) :
    fetchParams w s n k =
      guarded ((List.range n).map fun j => outOfRange w (s.pc + Int.ofNat (k + j)))
        (s.mem.cells (s.pc.toNat + k) n) := by
  induction n generalizing k with
  | zero => rfl
  | succ n ih =>
    have ht : (s.pc + Int.ofNat k).toNat = s.pc.toNat + k := by
      rw [Int.ofNat_eq_natCast]; omega
    have hr : ((List.range (n + 1)).map fun j => outOfRange w (s.pc + Int.ofNat (k + j))) =
        outOfRange w (s.pc + Int.ofNat k) :: (List.range n).map fun j => outOfRange w (s.pc + Int.ofNat (k + 1 + j)) := by
      rw [List.range_succ_eq_map, List.map_cons, List.map_map]
      simp [Function.comp_def, Nat.add_comm, Nat.add_left_comm]
    have hm : memRead s.mem (s.pc + Int.ofNat k) = .ok (s.mem.read (s.pc.toNat + k)) := by
      rw [memRead_of_nonneg _ (by rw [Int.ofNat_eq_natCast]; omega), ht]
    rw [hr, fetchParams, checked_eq_guarded, ih (k + 1)]
    cases hh : w.holds (s.pc + Int.ofNat k) with
    | false => simp only [guarded, firstFault, outOfRange, hh]; rfl
    | true =>
      simp only [guarded, firstFault, outOfRange, hh, Bool.not_true, Bool.false_eq_true, if_false, bind, Except.bind, hm]
      cases firstFault ((List.range n).map fun j =>
        (!w.holds (s.pc + Int.ofNat (k + 1 + j)), (⟨.arithmeticOverflow, 0⟩ : FaultRecord))) <;> rfl

/-- The range tests of the parameter cells find a fault exactly when the last cell is out of range. -/
theorem firstFault_paramCells {w : Width} {s : State} (hw : w.holds s.pc = true) (hpc : 0 ≤ s.pc) (n : Nat) :
    firstFault ((List.range n).map fun k => outOfRange w (s.pc + Int.ofNat (k + 1))) =
      if w.holds (s.pc + Int.ofNat n) then none else some ⟨.arithmeticOverflow, 0⟩ := by
  induction n with
  | zero => simp [hw]
  | succ n ih =>
    rw [List.range_succ, List.map_append, firstFault_append, ih]
    have hm : w.holds (s.pc + Int.ofNat (n + 1)) = true → w.holds (s.pc + Int.ofNat n) = true := by
      cases w <;> simp only [Width.holds, Bool.and_eq_true, decide_eq_true_eq, Int.ofNat_eq_natCast, imp_self]
      rintro ⟨a, b⟩; constructor <;> omega
    cases h1 : w.holds (s.pc + Int.ofNat (n + 1)) <;> cases h2 : w.holds (s.pc + Int.ofNat n) <;>
      simp_all [firstFault, outOfRange]

/-- Exactly the parameters of the opcode enter the instruction: cells beyond them change nothing. -/
theorem assemble_cells (h : Head) (m : Memory) (a : Nat) :
    assemble h (m.cells a h.op.paramCount) = assemble h (m.cells a 3) := by
  apply assemble_congr
  intro k hk
  rcases h with ⟨op, m1, m2, m3⟩
  cases op <;> simp only [Opcode.paramCount] at hk ⊢ <;> interval_cases k <;> rfl

/-- A fetch at a non-negative `pc`: the decode of the word there, the range tests of the parameter cells, the
instruction of the cells (30_encoding.md R54 to R56). -/
theorem fetch_of_nonneg (w : Width) (s : State) (hpc : 0 ≤ s.pc) :
    fetch w s = match decodeHead (instrWord s) with
      | .error e => .error (decodeFault e)
      | .ok h => guarded ((List.range h.op.paramCount).map fun k => outOfRange w (s.pc + Int.ofNat (k + 1)))
          (assemble h (s.mem.cells (s.pc.toNat + 1) 3)) := by
  have hn : ¬ s.pc < 0 := by omega
  simp only [fetch, memRead, address, hn, if_false, bind, Except.bind, pure, Except.pure, decodeWord, instrWord]
  cases hd : decodeHead (s.mem.read s.pc.toNat) with
  | error e => rfl
  | ok h =>
    simp only [fetchParams_eq_guarded w s hpc]
    have hm : (List.map (fun j => outOfRange w (s.pc + Int.ofNat (1 + j))) (List.range h.op.paramCount)) =
        (List.map (fun k => outOfRange w (s.pc + Int.ofNat (k + 1))) (List.range h.op.paramCount)) := by
      simp only [Nat.add_comm 1]
    rw [hm]
    simp only [guarded]
    cases firstFault ((List.range h.op.paramCount).map fun k => outOfRange w (s.pc + Int.ofNat (k + 1))) <;>
      simp [assemble_cells]

/-- A fetch at a negative `pc` (30_encoding.md R55). -/
theorem fetch_of_neg (w : Width) (s : State) (hpc : s.pc < 0) :
    fetch w s = .error ⟨.negativeAddress, s.pc⟩ := by
  simp [fetch, memRead, address, hpc, bind, Except.bind]

/-- The decoder on the cells at `pc` reads the same word and the same parameters as a fetch. -/
theorem decode_cellsAtPc (s : State) :
    decode (cellsAtPc s) = match decodeHead (instrWord s) with
      | .error e => .error e
      | .ok h => .ok (assemble h (s.mem.cells (s.pc.toNat + 1) 3), (cellsAtPc s).drop (h.op.paramCount + 1)) := rfl

/-- A fetch reads `pc` and memory alone. -/
theorem fetch_congr {w : Width} {s t : State} (hpc : t.pc = s.pc) (hm : t.mem = s.mem) : fetch w t = fetch w s := by
  rcases lt_or_ge s.pc 0 with h | h
  · rw [fetch_of_neg w s h, fetch_of_neg w t (hpc ▸ h), hpc]
  · rw [fetch_of_nonneg w s h, fetch_of_nonneg w t (hpc ▸ h)]
    simp only [instrWord, hpc, hm]

/-- A running engine whose fetch faults takes that fault. -/
theorem step_of_fetch_error {s : State} {f : FaultRecord} (hr : s.runs = true)
    (h : fetch Config.width s = .error f) : step s = .next (s.takeFault f) := by
  simp [step, hr, h]

/-- A running engine whose fetch gives an instruction executes it. -/
theorem step_of_fetch_ok {s : State} {i : Instr} (hr : s.runs = true) (h : fetch Config.width s = .ok i) :
    step s = exec i s := by
  simp [step, hr, h]

/-- An engine that does not run stays as it is. -/
theorem step_of_not_runs {s : State} (hr : s.runs = false) : step s = .next s := by
  simp [step, hr]

end Sys2Proof.Machine
end

