-- ==== Sys2Proof/Laws/PerInstr.lean ====
section
/-! SUPPORT. What the encoding of each instruction is, constructor by constructor (30_encoding.md R50, R62, R66). -/

namespace Sys2Proof.Laws.Encodes

/-- The encoding has as many cells as the instruction is long, 1 to 4; its first cell is one of the words 1 to 22299
that end in the digits of the opcode map; a well-formed instruction is encoded in Words. -/
def Statement (i : Instr) : Prop :=
  (encode i).length = i.length ∧ 1 ≤ i.length ∧ i.length ≤ 4 ∧ 1 ≤ i.headWord ∧ i.headWord ≤ 22299 ∧
    (i.wf = true → ∀ v ∈ encode i, Config.width.holds v = true)

/-- A small instruction word is a Word. -/
theorem holds_of_small {v : Int} (h : 1 ≤ v ∧ v ≤ 22299) : Config.width.holds v = true := by
  simp only [Config.width, Width.holds, Bool.and_eq_true, decide_eq_true_eq]
  norm_num
  omega

/-- The clauses that hold of any instruction once its word is known to be small. -/
theorem statement_of {i : Instr} (h1 : i.length ≤ 4) (h2 : 1 ≤ i.headWord ∧ i.headWord ≤ 22299) : Statement i := by
  refine ⟨rfl, Nat.succ_pos _, h1, h2.1, h2.2, fun hw v hv => ?_⟩
  rcases List.mem_cons.mp hv with rfl | hv
  · exact holds_of_small h2
  · exact List.all_eq_true.mp hw v hv

theorem source_modeCode (a : Source) : a.modeCode ≤ 2 := by cases a <;> simp [Source.modeCode]

theorem target_modeCode (d : Target) : d.modeCode ≤ 2 := by cases d <;> simp [Target.modeCode]

/-- The word of an opcode below 100 with three mode digits below 3 is small. -/
theorem headWord_small {op m1 m2 m3 : Nat} (h : 1 ≤ op ∧ op ≤ 99 ∧ m1 ≤ 2 ∧ m2 ≤ 2 ∧ m3 ≤ 2) :
    1 ≤ headWord op m1 m2 m3 ∧ headWord op m1 m2 m3 ≤ 22299 := by
  simp only [headWord, Int.ofNat_eq_natCast]
  omega

theorem add (a b : Source) (d : Target) : Statement (.add a b d) :=
  statement_of (Nat.le_refl 4) (headWord_small
    ⟨by decide, by decide, source_modeCode a, source_modeCode b, target_modeCode d⟩)

theorem mul (a b : Source) (d : Target) : Statement (.mul a b d) :=
  statement_of (Nat.le_refl 4) (headWord_small
    ⟨by decide, by decide, source_modeCode a, source_modeCode b, target_modeCode d⟩)

theorem inp (d : Target) : Statement (.inp d) :=
  statement_of (by simp [Instr.length, Instr.params]) (headWord_small
    ⟨by decide, by decide, target_modeCode d, by decide, by decide⟩)

theorem out (a : Source) : Statement (.out a) :=
  statement_of (by simp [Instr.length, Instr.params]) (headWord_small
    ⟨by decide, by decide, source_modeCode a, by decide, by decide⟩)

theorem jt (a t : Source) : Statement (.jt a t) :=
  statement_of (by simp [Instr.length, Instr.params]) (headWord_small
    ⟨by decide, by decide, source_modeCode a, source_modeCode t, by decide⟩)

theorem jf (a t : Source) : Statement (.jf a t) :=
  statement_of (by simp [Instr.length, Instr.params]) (headWord_small
    ⟨by decide, by decide, source_modeCode a, source_modeCode t, by decide⟩)

theorem lt (a b : Source) (d : Target) : Statement (.lt a b d) :=
  statement_of (Nat.le_refl 4) (headWord_small
    ⟨by decide, by decide, source_modeCode a, source_modeCode b, target_modeCode d⟩)

theorem eq (a b : Source) (d : Target) : Statement (.eq a b d) :=
  statement_of (Nat.le_refl 4) (headWord_small
    ⟨by decide, by decide, source_modeCode a, source_modeCode b, target_modeCode d⟩)

theorem arb (a : Source) : Statement (.arb a) :=
  statement_of (by simp [Instr.length, Instr.params]) (headWord_small
    ⟨by decide, by decide, source_modeCode a, by decide, by decide⟩)

theorem hlt : Statement .hlt :=
  statement_of (by simp [Instr.length, Instr.params]) (headWord_small
    ⟨by decide, by decide, by decide, by decide, by decide⟩)

end Sys2Proof.Laws.Encodes
end

