-- ==== Sys2Proof/Laws/Run.lean ====
section
/-! SUPPORT. All that the loop of the run commands can do, one step at a time (60_exceptions.md R121, R124). -/

namespace Sys2Proof.Machine

/-- A faulted or halted engine returns at once, unchanged. -/
theorem runLoop_stopped {s : State} (stops : Status → Bool) (fuel : Nat) (h : s.runs = false) :
    runLoop stops fuel s = some (.next s) := by
  unfold runLoop
  simp [h]

/-- An engine that runs has not returned before its first step. -/
theorem runLoop_zero {s : State} (stops : Status → Bool) (h : s.runs = true) : runLoop stops 0 s = none := by
  unfold runLoop
  simp [h]

/-- One turn of the loop: a step, then the test on the fault and the status it leaves. -/
theorem runLoop_succ {s : State} (stops : Status → Bool) (n : Nat) (h : s.runs = true) :
    runLoop stops (n + 1) s =
      if (stepAt Config.width s).fault.isSome || stops (stepAt Config.width s).status
      then some (.next (stepAt Config.width s)) else runLoop stops n (stepAt Config.width s) := by
  rw [runLoop.eq_def]
  simp [h, step_eq_stepAt]

/-- A loop that returns does so in a state, never by a refusal. -/
theorem runLoop_next {stops : Status → Bool} {fuel : Nat} {s : State} {o : Host.Outcome State Fault Refusal}
    (h : runLoop stops fuel s = some o) : ∃ t, o = .next t := by
  induction fuel generalizing s with
  | zero =>
    cases hr : s.runs
    · exact ⟨s, (Option.some.inj ((runLoop_stopped stops 0 hr).symm.trans h)).symm⟩
    · rw [runLoop_zero stops hr] at h
      cases h
  | succ n ih =>
    cases hr : s.runs
    · exact ⟨s, (Option.some.inj ((runLoop_stopped stops (n + 1) hr).symm.trans h)).symm⟩
    · rw [runLoop_succ stops n hr] at h
      split at h
      · exact ⟨_, (Option.some.inj h).symm⟩
      · exact ih h

end Sys2Proof.Machine
end

