-- ==== Sys2Proof/Tests/Slice0.lean ====
section
/-! SUPPORT. The model's own tests. Expected values are those of spec/95_test_vectors.md (the vector's id stands in the
comment) or worked by hand from the rule named. Then, for every obligation that has hypotheses, a witness that meets
them, one for each clause. -/

open Sys2Proof Sys2Proof.Machine

namespace Sys2Proof.Tests

/-! ### Well-formedness: one term for each parameter the check tests -/

/-- 00_scope.md R2: `WORD_MAX` and `WORD_MIN` are Words. -/
theorem test_wf_ends : (Instr.add (.immediate 9223372036854775807) (.relative (-9223372036854775808)) (.position 0)).wf
    = true := by decide

theorem test_wf_refuses_source_above : (Instr.out (.immediate 9223372036854775808)).wf = false := by decide

theorem test_wf_refuses_source_below : (Instr.jt (.position 0) (.relative (-9223372036854775809))).wf = false := by
  decide

theorem test_wf_refuses_target : (Instr.inp (.position 9223372036854775808)).wf = false := by decide

/-- The same term at another width: 65 bits and infinity hold it (00_scope.md R2). -/
theorem test_wf_wider : (Instr.inp (.position 9223372036854775808)).wfAt (.bits 65) = true ∧
    (Instr.inp (.position 9223372036854775808)).wfAt .unbounded = true := by decide

/-! ### Decoding: words written out digit by digit from 30_encoding.md R52 (`cbaoo`) -/

/-- `c=2 b=1 a=0 oo=01`. -/
theorem test_decode_add : decode [21001, 5, -6, 7, 8] = .ok (.add (.position 5) (.immediate (-6)) (.relative 7), [8]) := by
  decide

/-- `c=0 b=2 a=1 oo=02`. -/
theorem test_decode_mul : decode [2102, 5, 6, 7] = .ok (.mul (.immediate 5) (.relative 6) (.position 7), []) := by decide

/-- `a=2 oo=03`. -/
theorem test_decode_in : decode [203, 5] = .ok (.inp (.relative 5), []) := by decide

/-- `a=2 oo=04` (R66: `OUT [rb-34]`). -/
theorem test_decode_out : decode [204, -34] = .ok (.out (.relative (-34)), []) := by decide

/-- `b=1 a=0 oo=05` (R66: `JT [28], #6`). -/
theorem test_decode_jt : decode [1005, 28, 6] = .ok (.jt (.position 28) (.immediate 6), []) := by decide

/-- `b=0 a=2 oo=06`. -/
theorem test_decode_jf : decode [206, 3, 4] = .ok (.jf (.relative 3) (.position 4), []) := by decide

/-- `c=0 b=2 a=1 oo=07`. -/
theorem test_decode_lt : decode [2107, 1, 2, 3] = .ok (.lt (.immediate 1) (.relative 2) (.position 3), []) := by decide

/-- `c=2 b=0 a=1 oo=08`. -/
theorem test_decode_eq : decode [20108, 1, 2, 3] = .ok (.eq (.immediate 1) (.position 2) (.relative 3), []) := by decide

/-- `a=1 oo=09` (R66: `ARB #2000`). -/
theorem test_decode_arb : decode [109, 2000] = .ok (.arb (.immediate 2000), []) := by decide

/-- `oo=99`. -/
theorem test_decode_hlt : decode [99, 1] = .ok (.hlt, [1]) := by decide

/-- Refused words, V-DEC-1, 3, 4, 5, 7. -/
theorem test_decode_illegal_opcode :
    [0, -1, -99, 98, 1100].map decodeHead = [.error (.illegalOpcode 0), .error (.illegalOpcode (-1)),
      .error (.illegalOpcode (-99)), .error (.illegalOpcode 98), .error (.illegalOpcode 1100)] := by decide

/-- Refused words, V-DEC-8, 9, 11, V-HLT-3, V-OUT-5, V-JT-8. -/
theorem test_decode_illegal_mode :
    [301, 11301, 100001, 199, 1104, 10005].map decodeHead = [.error (.illegalMode 301), .error (.illegalMode 11301),
      .error (.illegalMode 100001), .error (.illegalMode 199), .error (.illegalMode 1104),
      .error (.illegalMode 10005)] := by decide

/-- Refused words, V-DEC-10, V-IN-4, V-LT-9. -/
theorem test_decode_invalid_target :
    [10001, 103, 11107].map decodeHead = [.error (.invalidWriteTarget 10001), .error (.invalidWriteTarget 103),
      .error (.invalidWriteTarget 11107)] := by decide

/-- The host's numbering: `204, -34` laid out as two 64-bit cells. -/
theorem test_table_word : decodeTableWord 128 (204 + (2 ^ 64 - 34) * 2 ^ 64) = some (.out (.relative (-34))) := by
  decide

/-! ### One step -/

/-- The state a step leaves. -/
def nextOf : Host.Outcome State Fault Refusal → Option State
  | .next t => some t
  | .fault _ => none
  | .refused _ => none

/-- What the tests look at: `pc`, `rb`, status, latch and one cell, after one step. -/
def look (s : State) (a : Nat) : Option (Int × Int × Status × Option FaultRecord × Int) :=
  (nextOf (step s)).map fun t => (t.pc, t.rb, t.status, t.fault, t.mem.read a)

/-- The queues after one step. -/
def lookQueues (s : State) : Option (List Int × List Int) := (nextOf (step s)).map fun t => (t.inq, t.outq)

/-- V-ADD-3. -/
theorem test_add_relative :
    look { State.load [22201, 1, 2, 3, 0, 0, 0, 0, 0, 0, 0, 40, 2] with rb := 10 } 13
      = some (4, 10, .ready, none, 42) := by decide

/-- V-ADD-5: `WORD_MAX + 1` faults and the target keeps its Word. -/
theorem test_add_overflows :
    look (State.load [1101, 9223372036854775807, 1, 0]) 0
      = some (0, 0, .ready, some ⟨.arithmeticOverflow, 0⟩, 1101) := by decide

/-- V-MUL-6: the largest square in range. -/
theorem test_mul_largest :
    look (State.load [1102, 3037000499, 3037000499, 0]) 0 = some (4, 0, .ready, none, 9223372030926249001) := by decide

/-- V-MUL-7: `WORD_MIN * -1`. -/
theorem test_mul_overflows :
    look (State.load [1102, -9223372036854775808, -1, 0]) 0
      = some (0, 0, .ready, some ⟨.arithmeticOverflow, 0⟩, 1102) := by decide

/-- V-IN-3: the oldest value, a relative target. -/
theorem test_in_takes_oldest :
    let s := { State.load [203, 5] with rb := 7, inq := [-42, 6] }
    look s 12 = some (2, 7, .ready, none, -42) ∧ lookQueues s = some ([6], []) := by decide

/-- V-IN-5: the fault precedes the look at the empty queue. -/
theorem test_in_faults_first :
    look (State.load [3, -1]) 0 = some (0, 0, .ready, some ⟨.negativeAddress, -1⟩, 3) := by decide

/-- V-OUT-8: address `-2 + 2`, an operand with a negative base. -/
theorem test_out_negative_base :
    let s := { State.load [204, 2, 99] with rb := -2, outq := [1] }
    look s 0 = some (2, -2, .suspendedAfterOutput, none, 204) ∧ lookQueues s = some ([], [1, 204]) := by decide

/-- V-OUT-9: `pc + 2` is out of range. -/
theorem test_out_at_top :
    let s := { State.reset with pc := 9223372036854775806, mem := [(9223372036854775806, 104), (9223372036854775807, 5)] }
    look s 9223372036854775807 = some (9223372036854775806, 0, .ready, some ⟨.arithmeticOverflow, 0⟩, 5) ∧
      lookQueues s = some ([], []) := by decide

/-- V-JT-9: both operands relative. -/
theorem test_jt_relative :
    look { State.load [2205, 1, 2, 0, -1, 40] with rb := 3 } 0 = some (40, 3, .ready, none, 2205) := by decide

/-- V-JT-7: the target operand is resolved though the jump is not taken. -/
theorem test_jt_bad_target :
    look (State.load [105, 0, -1]) 0 = some (0, 0, .ready, some ⟨.negativeAddress, -1⟩, 105) := by decide

/-- V-JF-3. -/
theorem test_jf_taken : look (State.load [6, 3, 4, 0, 9]) 0 = some (9, 0, .ready, none, 6) := by decide

/-- V-JF-2. -/
theorem test_jf_not_taken : look (State.load [1106, 5, 7]) 0 = some (3, 0, .ready, none, 1106) := by decide

/-- V-LT-5: signed, and 0 is written over an old value. -/
theorem test_lt_signed : look (State.load [1107, 0, -1, 5, 0, 9]) 5 = some (4, 0, .ready, none, 0) := by decide

/-- V-LT-6: the extremes compare without overflow. -/
theorem test_lt_extremes :
    look (State.load [1107, -9223372036854775808, 9223372036854775807, 5]) 5 = some (4, 0, .ready, none, 1) := by decide

/-- V-EQ-5: a relative target with a negative offset. -/
theorem test_eq_relative_target :
    look { State.load [21108, 2, 2, -1] with rb := 5 } 4 = some (4, 5, .ready, none, 1) := by decide

/-- V-EQ-7: the sign matters. -/
theorem test_eq_sign : look (State.load [1108, 3, -3, 5, 0, 9]) 5 = some (4, 0, .ready, none, 0) := by decide

/-- V-ARB-4: the operand is read with the old base. -/
theorem test_arb_old_base :
    look { State.load [209, 1, 0, 0, 0, -10] with rb := 4 } 5 = some (2, -6, .ready, none, -10) := by decide

/-- V-ARB-6: `WORD_MIN - 1`. -/
theorem test_arb_overflows :
    look { State.load [109, -1] with rb := -9223372036854775808 } 0
      = some (0, -9223372036854775808, .ready, some ⟨.arithmeticOverflow, 0⟩, 109) := by decide

/-- V-HLT-1: `pc` is not advanced. -/
theorem test_hlt : look (State.load [99]) 0 = some (0, 0, .halted, none, 99) := by decide

/-- V-HLT-5: no parameter is fetched, nothing overflows. -/
theorem test_hlt_at_top :
    look { State.reset with pc := 9223372036854775807, mem := [(9223372036854775807, 99)] } 0
      = some (9223372036854775807, 0, .halted, none, 0) := by decide

/-- The host's hook: the word 99 is what the first step after reset runs. -/
theorem test_fetch_word : look (State.reset.withFetchWord 64 99) 0 = some (0, 0, .halted, none, 99) := by decide

/-! ### Host commands -/

/-- V-HOST-1, V-HOST-3: the two host errors change nothing. -/
theorem test_host_errors :
    command 0 .consumeOutput (some (State.load [99])) = .returned (.failed .emptyOutput) (State.load [99]) ∧
    command 0 (.peek (-1)) (some (State.load [99])) = .returned (.failed .negativeAddress) (State.load [99]) ∧
    command 0 (.peek 0) (some (State.load [99])) = .returned (.word 99) (State.load [99]) := by decide

/-- What no port can carry, and what comes before the first reset (70_reset_and_hazards.md R132, R134). -/
theorem test_host_refusals :
    command 0 (.pushInput 9223372036854775808) (some State.reset) = .refused .notPresentable ∧
    command 0 (.reset [9223372036854775808]) none = .refused .notPresentable ∧
    command 0 .run none = .refused .beforeReset := by decide

/-- V-RUN-2, the first two commands: RUN_UNTIL_OUTPUT entered after an output goes on to the next. -/
theorem test_run_until_output :
    command 2 .runUntilOutput (some { State.load [104, 2, 99] with status := .suspendedAfterOutput, outq := [1] })
      = .returned (.ended .suspendedAfterOutput none)
        { State.load [104, 2, 99] with status := .suspendedAfterOutput, outq := [1, 2], pc := 2 } := by decide

/-- The codes of 10_state.md R14 and 60_exceptions.md R100. -/
theorem test_codes :
    [Status.ready, .suspendedAwaitingInput, .suspendedAfterOutput, .halted].map Status.code = [0, 1, 2, 3] ∧
    [none, some ⟨.illegalOpcode, 0⟩, some ⟨.illegalMode, 0⟩, some ⟨.invalidWriteTarget, 0⟩, some ⟨.negativeAddress, 0⟩,
      some ⟨.arithmeticOverflow, 0⟩].map faultCode = [0, 1, 2, 3, 4, 5] := by decide

/-! ### Witnesses: for each obligation with hypotheses, states and operands that meet them together -/

/-- `WORD_MAX` for `W = 64` (00_scope.md R2). -/
abbrev top : Int := 9223372036854775807

/-- `WORD_MIN` for `W = 64`. -/
abbrev bottom : Int := -9223372036854775808

/-- A reset engine with the Words of a list from address `a` on and `pc` at `a`. -/
abbrev engineAt (a : Nat) (cells : List Int) : State :=
  { State.reset with pc := Int.ofNat a, mem := Memory.imageFrom a cells }

theorem witness_DecodedCellsAreTheEncoding :
    decode [1002, 4, 3, 4, 33] = .ok (.mul (.position 4) (.immediate 3) (.position 4), [33]) ∧
      (Instr.mul (.position 4) (.immediate 3) (.position 4)).length ≤ [1002, 4, 3, 4, (33 : Int)].length := by decide

theorem witness_LengthIsAFunctionOfTheOpcode :
    decode [99] = .ok (.hlt, []) ∧
      decode [22201, 1, 2, 3] = .ok (.add (.relative 1) (.relative 2) (.relative 3), []) ∧
      ({ State.load [99] with rb := 5, status := .halted } : State).pc = (State.load [99]).pc ∧
      ({ State.load [99] with rb := 5, status := .halted } : State).mem = (State.load [99]).mem := by decide

/-- The four cells of an ADD end at `WORD_MAX`, and a HLT stands in it. -/
theorem witness_StepRunsTheDecodedInstruction :
    let s := engineAt 9223372036854775804 [1101, 1, 2, 0]
    let t := engineAt 9223372036854775807 [99]
    (s.runs = true ∧ 0 ≤ s.pc ∧ decode (cellsAtPc s) = .ok (.add (.immediate 1) (.immediate 2) (.position 0), []) ∧
      Config.width.holds s.pc = true ∧ Config.width.holds (s.pc + Int.ofNat (4 - 1)) = true) ∧
    (t.runs = true ∧ 0 ≤ t.pc ∧ decode (cellsAtPc t) = .ok (.hlt, [0, 0, 0]) ∧
      Config.width.holds t.pc = true ∧ Config.width.holds (t.pc + Int.ofNat (1 - 1)) = true) := by decide

theorem witness_IllegalOpcodeFaults :
    ((State.load [-1]).runs = true ∧ 0 ≤ (State.load [-1]).pc ∧ instrWord (State.load [-1]) < 0) ∧
    (State.reset.runs = true ∧ 0 ≤ State.reset.pc ∧
      instrWord State.reset % 100 ∉ ([1, 2, 3, 4, 5, 6, 7, 8, 9, 99] : List Int)) := by decide

/-- One word for each clause, the least digit that is illegal there. -/
theorem witness_IllegalModeFaults :
    let word (I : Int) := instrWord (State.load [I])
    (State.load [301]).runs = true ∧ 0 ≤ (State.load [301]).pc ∧ 0 ≤ word 301 ∧
    (word 301 % 100 = Int.ofNat Opcode.add.code ∧ 1 ≤ Opcode.add.paramCount ∧ 2 < word 301 / 100 % 10) ∧
    (word 3005 % 100 = Int.ofNat Opcode.jt.code ∧ 2 ≤ Opcode.jt.paramCount ∧ 2 < word 3005 / 1000 % 10) ∧
    (word 30007 % 100 = Int.ofNat Opcode.lt.code ∧ 3 ≤ Opcode.lt.paramCount ∧ 2 < word 30007 / 10000 % 10) ∧
    (word 199 % 100 = Int.ofNat Opcode.hlt.code ∧ Opcode.hlt.paramCount < 1 ∧ word 199 / 100 % 10 ≠ 0) ∧
    (word 1104 % 100 = Int.ofNat Opcode.out.code ∧ Opcode.out.paramCount < 2 ∧ word 1104 / 1000 % 10 ≠ 0) ∧
    (word 10005 % 100 = Int.ofNat Opcode.jt.code ∧ Opcode.jt.paramCount < 3 ∧ word 10005 / 10000 % 10 ≠ 0) ∧
    (word 100001 % 100 = Int.ofNat Opcode.add.code ∧ word 100001 / 100000 ≠ 0) := by decide

theorem witness_ImmediateWriteTargetFaults :
    ((State.load [103]).runs = true ∧ 0 ≤ (State.load [103]).pc ∧ instrWord (State.load [103]) = 103) ∧
    ((State.load [12208]).runs = true ∧ 0 ≤ (State.load [12208]).pc ∧
      (8 : Int) ∈ ([1, 2, 7, 8] : List Int) ∧ (2 : Int) ∈ ([0, 1, 2] : List Int) ∧
      instrWord (State.load [12208]) = 8 + 100 * 2 + 1000 * 2 + 10000) := by decide

theorem witness_NegativePcFaultsAtFetch :
    ({ State.reset with pc := -1 } : State).runs = true ∧ ({ State.reset with pc := -1 } : State).pc < 0 := by decide

theorem witness_ParameterBeyondTheTopFaults :
    let s := engineAt 9223372036854775805 [1, 0, 0]
    s.runs = true ∧ 0 ≤ s.pc ∧ Config.width.holds s.pc = true ∧
      decodeHead (instrWord s) = .ok ⟨.add, .position, .position, .position⟩ ∧
      Config.width.holds (s.pc + Int.ofNat Opcode.add.paramCount) = false := by decide

theorem witness_StepFollowsThePriorityTable :
    (State.load [99]).runs = true ∧ firstFault (priorityTable Config.width (State.load [99])) = none ∧
      firstFault (priorityTable Config.width (State.load [3, -1]))
        = some ⟨.negativeAddress, -1⟩ := by decide

theorem witness_FaultChangesOnlyTheLatch :
    let s := State.load [3, -1]
    let t := State.load [99]
    exec (.inp (.position (-1))) s = .next { s with fault := some ⟨.negativeAddress, -1⟩ } ∧
      step s = .next { s with fault := some ⟨.negativeAddress, -1⟩ } ∧
      exec .hlt t = .next { t with status := .halted } ∧ step t = .next { t with status := .halted } :=
  ⟨rfl, rfl, rfl, rfl⟩

theorem witness_LatchedFaultStopsTheEngine :
    ({ State.reset with fault := some ⟨.illegalOpcode, 0⟩ } : State).fault = some ⟨.illegalOpcode, 0⟩ := rfl

theorem witness_HaltedStepIsANoop : ({ State.load [99] with status := .halted } : State).status = .halted := rfl

/-- `instrTests` is, by definition, the list of tests each statement writes out. The largest sum and the last `pc`
that pass; then one state for each kind of fault: sum, advance, negative source, relative target out of range and
negative. -/
theorem witness_AddStoresTheSum :
    let i := Instr.add (.immediate (top - 1)) (.immediate 1) (.position 0)
    firstFault (instrTests Config.width (engineAt 9223372036854775803 []) i) = none ∧
    firstFault (instrTests Config.width State.reset (.add (.immediate top) (.immediate 1) (.position 0)))
      = some ⟨.arithmeticOverflow, 0⟩ ∧
    firstFault (instrTests Config.width (engineAt 9223372036854775804 []) i) = some ⟨.arithmeticOverflow, 0⟩ ∧
    firstFault (instrTests Config.width State.reset (.add (.position (-1)) (.immediate 1) (.position 0)))
      = some ⟨.negativeAddress, -1⟩ ∧
    firstFault (instrTests Config.width { State.reset with rb := top } (.add (.immediate 0) (.immediate 0) (.relative 1)))
      = some ⟨.arithmeticOverflow, 0⟩ ∧
    firstFault (instrTests Config.width State.reset (.add (.immediate 0) (.immediate 0) (.relative (-1))))
      = some ⟨.negativeAddress, -1⟩ := by decide

theorem witness_MulStoresTheProduct :
    firstFault (instrTests Config.width State.reset (.mul (.immediate bottom) (.immediate 1) (.position 0))) = none ∧
    firstFault (instrTests Config.width State.reset (.mul (.immediate bottom) (.immediate (-1)) (.position 0)))
      = some ⟨.arithmeticOverflow, 0⟩ := by decide

theorem witness_InTakesTheOldestInput :
    let s := { engineAt 9223372036854775805 [] with inq := [-42, 6] }
    s.inq = -42 :: [6] ∧
      firstFault (targetTests Config.width s (.position 0) ++ [outOfRange Config.width (s.pc + 2)]) = none := by decide

theorem witness_InWaitsOnAnEmptyQueue :
    State.reset.inq = [] ∧
      firstFault (targetTests Config.width State.reset (.relative 0) ++
        [outOfRange Config.width (State.reset.pc + 2)]) = none := by decide

theorem witness_InFaultsBeforeTheQueueIsTested :
    firstFault (targetTests Config.width State.reset (.position (-1)) ++
      [outOfRange Config.width (State.reset.pc + 2)]) = some ⟨.negativeAddress, -1⟩ ∧
    firstFault (targetTests Config.width (engineAt 9223372036854775806 []) (.position 0) ++
      [outOfRange Config.width ((engineAt 9223372036854775806 []).pc + 2)]) = some ⟨.arithmeticOverflow, 0⟩ := by decide

theorem witness_OutAppendsTheOperand :
    firstFault (instrTests Config.width (engineAt 9223372036854775805 []) (.out (.position 0))) = none ∧
    firstFault (instrTests Config.width (engineAt 9223372036854775806 []) (.out (.position 0)))
      = some ⟨.arithmeticOverflow, 0⟩ := by decide

/-- Taken, not taken, and the operand of a jump that is not taken resolved all the same. -/
theorem witness_JtJumpsOnNonZero :
    firstFault (instrTests Config.width State.reset (.jt (.immediate (-1)) (.immediate (-8)))) = none ∧
    firstFault (instrTests Config.width (engineAt 9223372036854775804 []) (.jt (.immediate 0) (.immediate 0))) = none ∧
    firstFault (instrTests Config.width State.reset (.jt (.immediate 0) (.position (-1))))
      = some ⟨.negativeAddress, -1⟩ := by decide

theorem witness_JfJumpsOnZero :
    firstFault (instrTests Config.width State.reset (.jf (.position 0) (.immediate 7))) = none ∧
    firstFault (instrTests Config.width State.reset (.jf (.immediate 1) (.immediate 7))) = none ∧
    firstFault (instrTests Config.width (engineAt 9223372036854775805 []) (.jf (.immediate 0) (.immediate 0)))
      = some ⟨.arithmeticOverflow, 0⟩ := by decide

/-- Less, not less, and a fault. -/
theorem witness_LtStoresTheComparison :
    firstFault (instrTests Config.width State.reset (.lt (.immediate bottom) (.immediate top) (.position 5))) = none ∧
    firstFault (instrTests Config.width State.reset (.lt (.immediate 0) (.immediate 0) (.position 0))) = none ∧
    firstFault (instrTests Config.width { State.reset with rb := bottom }
      (.lt (.relative (-1)) (.immediate 0) (.position 0))) = some ⟨.arithmeticOverflow, 0⟩ := by decide

/-- Equal, unequal, and a fault. -/
theorem witness_EqStoresTheComparison :
    firstFault (instrTests Config.width State.reset (.eq (.position 9) (.immediate 0) (.position 0))) = none ∧
    firstFault (instrTests Config.width State.reset (.eq (.immediate top) (.immediate bottom) (.position 0))) = none ∧
    firstFault (instrTests Config.width State.reset (.eq (.immediate 1) (.position (-1)) (.position (-2))))
      = some ⟨.negativeAddress, -1⟩ := by decide

theorem witness_ArbAddsToTheBase :
    firstFault (instrTests Config.width { State.reset with rb := top - 1 } (.arb (.immediate 1))) = none ∧
    firstFault (instrTests Config.width { State.reset with rb := top } (.arb (.immediate 1)))
      = some ⟨.arithmeticOverflow, 0⟩ := by decide

theorem witness_HltHaltsInPlace :
    let s := engineAt 9223372036854775807 [99]
    decodeHead 99 = .ok ⟨.hlt, .position, .position, .position⟩ ∧ s.runs = true ∧ 0 ≤ s.pc ∧ instrWord s = 99 := by
  decide

/-- A store and a fault, for the four instructions; the clauses on memory are met by address 1, and by 0 where the
target faults. -/
theorem witness_StoringInstructionsFrame :
    let s := State.load [1101, 1, 1, 0]
    exec (.add (.immediate 1) (.immediate 1) (.position 0)) s
      = .next { s with pc := 4, mem := [(0, 2), (1, 1), (2, 1)] } ∧
    exec (.mul (.immediate 3) (.immediate 5) (.position 0)) s
      = .next { s with pc := 4, mem := [(0, 15), (1, 1), (2, 1)] } ∧
    exec (.lt (.immediate 1) (.immediate 1) (.position 0)) s = .next { s with pc := 4, mem := [(1, 1), (2, 1)] } ∧
    exec (.eq (.immediate 1) (.immediate 1) (.position (-1))) s
      = .next { s with fault := some ⟨.negativeAddress, -1⟩ } ∧
    writeTarget Config.width s (.position 0) ≠ .ok 1 ∧ writeTarget Config.width s (.position (-1)) ≠ .ok 0 :=
  ⟨rfl, rfl, rfl, rfl, by decide, by decide⟩

theorem witness_InputInstructionFrame :
    let s := State.load [3, 7]
    let t := { s with inq := [5, 6] }
    (exec (.inp (.position 7)) s = .next { s with status := .suspendedAwaitingInput } ∧ s.inq = []) ∧
    exec (.inp (.position 7)) t = .next { t with pc := 2, inq := [6], mem := [(0, 3), (1, 7), (7, 5)] } ∧
    writeTarget Config.width t (.position 7) ≠ .ok 0 :=
  ⟨⟨rfl, rfl⟩, rfl, by decide⟩

theorem witness_NonStoringInstructionsFrame :
    let s := State.reset
    exec (.out (.immediate 4)) s = .next { s with pc := 2, outq := [4], status := .suspendedAfterOutput } ∧
    exec (.jt (.immediate 1) (.immediate (-8))) s = .next { s with pc := -8 } ∧
    exec (.jf (.immediate 1) (.immediate (-8))) s = .next { s with pc := 3 } ∧
    exec (.arb (.immediate (-5))) s = .next { s with pc := 2, rb := -5 } ∧
    exec .hlt s = .next { s with status := .halted } :=
  ⟨rfl, rfl, rfl, rfl, rfl⟩

theorem witness_OnlyArbWritesTheBase :
    exec (.arb (.immediate (-5))) State.reset = .next { State.reset with pc := 2, rb := -5 } ∧
      ({ State.reset with pc := 2, rb := -5 } : State).rb ≠ State.reset.rb :=
  ⟨rfl, by decide⟩

theorem witness_OnlyStoringInstructionsChangeMemory :
    let s := State.load [3, 0]
    let t := { s with inq := [9] }
    (exec (.eq (.immediate 1) (.immediate 1) (.position 4)) s = .next { s with pc := 4, mem := [(0, 3), (4, 1)] } ∧
      [(0, 3), (4, (1 : Int))] ≠ s.mem) ∧
    (exec (.inp (.position 0)) t = .next { t with pc := 2, inq := [], mem := [(0, 9)] } ∧
      [(0, (9 : Int))] ≠ t.mem) :=
  ⟨⟨rfl, by decide⟩, rfl, by decide⟩

/-- Both clauses: a fault, then each row of the table: an instruction of each advance, IN with and without input, jumps
taken and not taken, HLT. -/
theorem witness_NextPcOfEachInstruction :
    let s := State.reset
    let t := { s with inq := [0] }
    s.fault = none ∧ t.fault = none ∧
    exec (.out (.position (-1))) s = .next { s with fault := some ⟨.negativeAddress, -1⟩ } ∧
    exec (.add (.immediate 0) (.immediate 0) (.position 0)) s = .next { s with pc := 4 } ∧
    exec (.mul (.immediate 0) (.immediate 0) (.position 0)) s = .next { s with pc := 4 } ∧
    exec (.inp (.position 0)) s = .next { s with status := .suspendedAwaitingInput } ∧
    exec (.inp (.position 0)) t = .next { t with pc := 2, inq := [] } ∧
    exec (.out (.immediate 0)) s = .next { s with pc := 2, outq := [0], status := .suspendedAfterOutput } ∧
    exec (.jt (.immediate 1) (.immediate bottom)) s = .next { s with pc := bottom } ∧
    exec (.jf (.immediate 1) (.immediate bottom)) s = .next { s with pc := 3 } ∧
    exec (.lt (.immediate 0) (.immediate 0) (.position 0)) s = .next { s with pc := 4 } ∧
    exec (.eq (.immediate 0) (.immediate 1) (.position 0)) s = .next { s with pc := 4 } ∧
    exec (.arb (.immediate 0)) s = .next { s with pc := 2 } ∧
    exec .hlt s = .next { s with status := .halted } :=
  ⟨rfl, rfl, rfl, rfl, rfl, rfl, rfl, rfl, rfl, rfl, rfl, rfl, rfl, rfl⟩

theorem witness_StatusAfterAStep :
    let halted := { State.load [99] with status := .halted }
    (step halted = .next halted ∧ halted.runs = false) ∧
    (step State.reset = .next { State.reset with fault := some ⟨.illegalOpcode, 0⟩ } ∧ State.reset.runs = true) ∧
    (step (State.load [99]) = .next halted ∧ (State.load [99]).runs = true ∧ halted.fault = none) :=
  ⟨⟨rfl, rfl⟩, ⟨rfl, rfl⟩, rfl, rfl, rfl⟩

/-- Both clauses: a step that completes and a step that faults, from a suspended status and from READY. -/
theorem witness_StatusDoesNotGateTheStep :
    let s := { State.load [109, 3] with status := .suspendedAfterOutput }
    let t := { State.reset with status := .suspendedAwaitingInput }
    (s.status ≠ .halted ∧ Status.ready ≠ .halted ∧ step s = .next { s with pc := 2, rb := 3, status := .ready } ∧
      s.fault = none) ∧
    (t.status ≠ .halted ∧ step t = .next { t with fault := some ⟨.illegalOpcode, 0⟩ }) :=
  ⟨⟨by decide, by decide, rfl, rfl⟩, by decide, rfl⟩

theorem witness_TheOutputQueueIsNeverRead :
    step (State.load [104, 7])
      = .next { State.load [104, 7] with pc := 2, outq := [7], status := .suspendedAfterOutput } := rfl

theorem witness_InputNeverDecidesAFault :
    let s := State.load [3, -1]
    step s = .next { s with fault := some ⟨.negativeAddress, -1⟩ } ∧
      step { s with inq := [4] } = .next { s with inq := [4], fault := some ⟨.negativeAddress, -1⟩ } :=
  ⟨rfl, rfl⟩

/-- One for each clause; the address `WORD_MAX` among them. -/
theorem witness_MemoryReadGivesTheStoredWord :
    (-1 : Int) < 0 ∧ (0 : Int) ≤ top ∧
    (Memory.wf [(0, 1)] = true ∧ memWrite [(0, 1)] top 5 = .ok [(0, 1), (9223372036854775807, 5)]) ∧
    (memWrite [(0, 1)] 0 0 = .ok [] ∧ (1 : Int) ≠ 0) := by decide

theorem witness_MemoryWriteChangesOneCell :
    bottom < 0 ∧ (Memory.wf [(3, 1)] = true ∧ (0 : Int) ≤ 0) ∧
      writeTarget Config.width { State.reset with rb := top } (.relative (-1)) = .ok 9223372036854775806 := by decide

/-- V-ADD-10: an ADD stores the word of a HLT. An IN at the last `pc` with room stores a word with a parameter in
`WORD_MAX`. A MUL stores a word that is refused, a LT and an EQ the Words 1 and 0. -/
theorem witness_StoreToTheNextWordIsFetched :
    let s := State.load [1101, 90, 9, 4, 0]
    let t := { s with pc := 4, mem := [(0, 1101), (1, 90), (2, 9), (3, 4), (4, 99)] }
    let u := { engineAt 9223372036854775804 [3, 9223372036854775806] with inq := [104] }
    let v := { u with
      pc := 9223372036854775806, inq := [], mem := u.mem ++ [(9223372036854775806, 104)] }
    (s.mem.wf = true ∧ storeOf s (.add (.immediate 90) (.immediate 9) (.position 4)) = some (.position 4, 99) ∧
      targetAddress s (.position 4) = s.pc + 4 ∧ s.fault = none ∧
      exec (.add (.immediate 90) (.immediate 9) (.position 4)) s = .next t ∧ t.fault = none ∧
      decodeHead 99 = .ok ⟨.hlt, .position, .position, .position⟩ ∧
      Config.width.holds (t.pc + Int.ofNat Opcode.hlt.paramCount) = true) ∧
    (u.mem.wf = true ∧ storeOf u (.inp (.position 9223372036854775806)) = some (.position 9223372036854775806, 104) ∧
      targetAddress u (.position 9223372036854775806) = u.pc + 2 ∧ u.fault = none ∧
      exec (.inp (.position 9223372036854775806)) u = .next v ∧ v.fault = none ∧
      decodeHead 104 = .ok ⟨.out, .immediate, .position, .position⟩ ∧
      Config.width.holds (v.pc + Int.ofNat Opcode.out.paramCount) = true) ∧
    (storeOf s (.mul (.immediate (-1)) (.immediate 99) (.position 4)) = some (.position 4, -99) ∧
      exec (.mul (.immediate (-1)) (.immediate 99) (.position 4)) s
        = .next { s with pc := 4, mem := s.mem ++ [(4, -99)] } ∧
      decodeHead (-99) = .error (.illegalOpcode (-99))) ∧
    (storeOf s (.lt (.immediate 0) (.immediate 1) (.position 4)) = some (.position 4, 1) ∧
      exec (.lt (.immediate 0) (.immediate 1) (.position 4)) s = .next { s with pc := 4, mem := s.mem ++ [(4, 1)] }) ∧
    (storeOf s (.eq (.immediate 0) (.immediate 1) (.position 4)) = some (.position 4, 0) ∧
      exec (.eq (.immediate 0) (.immediate 1) (.position 4)) s = .next { s with pc := 4 }) :=
  ⟨⟨by decide, by decide, by decide, rfl, rfl, rfl, by decide, by decide⟩,
    ⟨by decide, by decide, by decide, rfl, rfl, rfl, by decide, by decide⟩,
    ⟨by decide, rfl, by decide⟩, ⟨by decide, rfl⟩, by decide, rfl⟩

/-- A loaded engine, and one that waits at an IN. -/
theorem witness_StepKeepsTheInvariant :
    let s := State.load [3, 0]
    let t := { s with status := .suspendedAwaitingInput }
    (s.Inv Config.width ∧ step s = .next t) ∧ (t.Inv Config.width ∧ step t = .next t) := by
  refine ⟨⟨⟨by unfold State.holdsWords; decide, by decide, by intro h; cases h⟩, rfl⟩,
    ⟨by unfold State.holdsWords; decide, by decide, fun _ => ⟨.position 0, rfl⟩⟩, rfl⟩

/-- From no engine at all by RESET, and from a loaded one by RUN. -/
theorem witness_CommandsKeepTheInvariant :
    let s := State.load [99]
    (command 1 (.reset [99]) none = .returned .done s ∧ ∀ u : State, none = some u → u.Inv Config.width) ∧
    (command 1 .run (some s) = .returned (.ended .halted none) { s with status := .halted } ∧ s.Inv Config.width) :=
  ⟨⟨by decide, fun _ h => nomatch h⟩, by decide,
    by unfold State.holdsWords; decide, by decide, by intro h; cases h⟩

/-- A width above 64 and the infinite one; a step that completes and a fault of another cause; the excluded case is
none of them. -/
theorem witness_WiderWordsAgreeUntilOverflow :
    (Width.bits 65).admitted = true ∧ Width.unbounded.admitted = true ∧
    step (State.load [99]) = .next { State.load [99] with status := .halted } ∧
    ({ State.load [99] with status := .halted } : State).fault ≠ some ⟨.arithmeticOverflow, 0⟩ ∧
    step State.reset = .next { State.reset with fault := some ⟨.illegalOpcode, 0⟩ } ∧
    some (⟨.illegalOpcode, 0⟩ : FaultRecord) ≠ some ⟨.arithmeticOverflow, 0⟩ :=
  ⟨by decide, by decide, rfl, by decide, rfl, by decide⟩

theorem witness_UnboundedWordsNeverOverflow : (State.load [1101, top, 1, 0]).runs = true := rfl

theorem witness_ResetLoadsTheImage :
    imageFits Config.width [] = true ∧ imageFits Config.width [top, bottom, 0] = true := by decide

theorem witness_OnlyResetBeforeTheFirstReset (image : List Int) : Command.step ≠ .reset image := by
  intro h; cases h

theorem witness_PushInputAppendsToTheQueue :
    Config.width.holds top = true ∧ Config.width.holds bottom = true := by decide

theorem witness_ConsumeOutputTakesTheOldest :
    State.reset.outq = [] ∧ ({ State.reset with outq := [7, 8] } : State).outq = 7 :: [8] := by decide

/-- Below every Word, at the two ends of the addresses. -/
theorem witness_PeekReadsWithoutChange :
    bottom - 1 < 0 ∧ ((0 : Int) ≤ 0 ∧ Config.width.holds 0 = true) ∧ ((0 : Int) ≤ top ∧ Config.width.holds top = true) := by
  decide

theorem witness_RegisterReadsAndStepReply :
    step (State.load [99]) = .next { State.load [99] with status := .halted } := rfl

/-- The two commands with their statuses, each with a start it returns from at the status named. -/
theorem witness_RunReturnsAtTheFirstStop :
    (∃ c stops on, (c = Command.run ∧ stops = runStops ∧ on = [Status.halted, .suspendedAwaitingInput] ∨
      c = .runUntilOutput ∧ stops = outputStops ∧
        on = [.halted, .suspendedAfterOutput, .suspendedAwaitingInput])) ∧
    command 1 .run (some (State.load [3, 0])) = .returned (.ended .suspendedAwaitingInput none)
      { State.load [3, 0] with status := .suspendedAwaitingInput } ∧
    command 1 .run (some (State.load [104, 7])) = .running ∧
    command 1 .runUntilOutput (some (State.load [104, 7])) = .returned (.ended .suspendedAfterOutput none)
      { State.load [104, 7] with pc := 2, outq := [7], status := .suspendedAfterOutput } ∧
    command 1 .runUntilOutput (some (State.load [3, 0])) = .returned (.ended .suspendedAwaitingInput none)
      { State.load [3, 0] with status := .suspendedAwaitingInput } :=
  ⟨⟨_, _, _, .inl ⟨rfl, rfl, rfl⟩⟩, by decide, by decide, by decide, by decide⟩

/-- The three ends: over, faulted, waiting. -/
theorem witness_RunEndsOverFaultedOrWaiting :
    RunReturns runStops (State.load [99]) { State.load [99] with status := .halted } ∧
    RunReturns runStops State.reset { State.reset with fault := some ⟨.illegalOpcode, 0⟩ } ∧
    RunReturns runStops (State.load [3, 0]) { State.load [3, 0] with status := .suspendedAwaitingInput } :=
  ⟨⟨1, rfl⟩, ⟨1, rfl⟩, 1, rfl⟩

/-- A return with one value appended, and a return with none. -/
theorem witness_RunUntilOutputAppendsAtMostOne :
    let s := State.load [104, 7, 99]
    let t := { s with pc := 2, outq := [7], status := .suspendedAfterOutput }
    (RunReturns outputStops s t ∧ t.outq = s.outq ++ [7] ∧
      s.runs = true ∧ t.status = .suspendedAfterOutput ∧ t.fault = none) ∧
    RunReturns outputStops (State.load [99]) { State.load [99] with status := .halted } :=
  ⟨⟨⟨1, rfl⟩, rfl, rfl, rfl, rfl⟩, 1, rfl⟩

theorem witness_RunGoesOnPastOutput :
    let s := State.load [104, 7, 99]
    let t := { s with pc := 2, outq := [7], status := .suspendedAfterOutput }
    RunReturns outputStops s t ∧ t.status = .suspendedAfterOutput ∧
      RunReturns runStops t { t with status := .halted } :=
  ⟨⟨1, rfl⟩, rfl, 1, rfl⟩

/-- V-JT-10: `JT #1, #0` at address 0. -/
theorem witness_UnchangingStepHangs :
    let s := State.load [1105, 1, 0]
    s.runs = true ∧ s.status = .ready ∧ step s = .next s := ⟨rfl, rfl, rfl⟩

end Sys2Proof.Tests
end

section
/-! The answers of `MemRead` and `MemWrite` by the sign of the address (20_memory.md R32, R33), and what a read gives
after a reset and after a write. -/

namespace Sys2Proof.Machine

/-- A read below 0 faults with the address (20_memory.md R32, 60_exceptions.md R104). -/
theorem memRead_of_neg (m : Memory) {a : Int} (h : a < 0) : memRead m a = .error ⟨.negativeAddress, a⟩ := by
  rw [memRead, address, if_pos h]
  rfl

/-- A write succeeds exactly at a non-negative address, and leaves the cell written (20_memory.md R33). -/
theorem memWrite_eq_ok {m n : Memory} {a v : Int} : memWrite m a v = .ok n ↔ 0 ≤ a ∧ m.write a.toNat v = n := by
  rw [memWrite, address_eq_guarded, guarded_bind_pure, guarded_eq_ok, firstFault_isNegative]
  simp

/-- The program's Word, or 0 beyond the program. -/
theorem memRead_load (image : List Int) {a : Int} (h : 0 ≤ a) :
    memRead (State.load image).mem a = .ok (image.getD a.toNat 0) := by
  rw [memRead_of_nonneg _ h, State.load_mem, Memory.read_imageFrom, if_pos (Nat.zero_le _), Nat.sub_zero]

theorem memRead_memWrite_same {m n : Memory} {a v : Int} (hw : m.wf = true) (h : memWrite m a v = .ok n) :
    memRead n a = .ok v := by
  obtain ⟨ha, rfl⟩ := memWrite_eq_ok.mp h
  rw [memRead_of_nonneg _ ha, Memory.read_write_same hw]

/-- No premise on the sign of the cell read: below 0 both reads fault alike. -/
theorem memRead_memWrite_other {m n : Memory} {a b v : Int} (h : memWrite m a v = .ok n) (hb : b ≠ a) :
    memRead n b = memRead m b := by
  obtain ⟨ha, rfl⟩ := memWrite_eq_ok.mp h
  rcases lt_or_ge b 0 with hneg | hpos
  · rw [memRead_of_neg _ hneg, memRead_of_neg _ hneg]
  · have hcell : b.toNat ≠ a.toNat := by omega
    rw [memRead_of_nonneg _ hpos, memRead_of_nonneg _ hpos, Memory.read_write_other m v hcell]

/-- Settles O39: the address check decides whether a read faults, and the laws of memory say what it gives. -/
theorem memoryReadGivesTheStoredWord : Obligations.MemoryReadGivesTheStoredWord :=
  ⟨fun m _ h => memRead_of_neg m h, fun image _ h => memRead_load image h,
    fun _ _ _ _ hw h => memRead_memWrite_same hw h, fun _ _ _ _ _ h hb => memRead_memWrite_other h hb⟩

end Sys2Proof.Machine
end

section
/-! The length of a decoded instruction (30_encoding.md R62): the instruction word selects the opcode by its two low
digits, and the opcode's parameter count gives how many cells the decoder takes. -/

namespace Sys2Proof

/-- The longest instructions have three parameters (30_encoding.md R53). -/
theorem Opcode.paramCount_le_three (op : Opcode) : op.paramCount ≤ 3 := by
  cases op <;> decide

/-- The opcode of an accepted instruction word is the one its two low digits select (30_encoding.md R51, R53). -/
theorem ofNat?_of_decodeHead {I : Int} {h : Head} (hd : decodeHead I = .ok h) :
    Opcode.ofNat? (I.toNat % 100) = some h.op := by
  obtain ⟨-, hcode, -⟩ := decodeHead_eq_ok.mp hd
  exact Opcode.ofNat?_eq_some.mpr hcode

/-- Of the word only the two low digits have a part in the length: the mode digits and the parameter cells have none. -/
theorem length_of_decode {cells rest : List Int} {i : Instr} (hd : decode cells = .ok (i, rest)) :
    ∃ op, Opcode.ofNat? ((cells.getD 0 0).toNat % 100) = some op ∧ i.length = 1 + op.paramCount ∧
      rest = cells.drop i.length := by
  obtain ⟨h, hhead, rfl, rfl⟩ := decode_eq_ok.mp hd
  refine ⟨h.op, ofNat?_of_decodeHead hhead, ?_, ?_⟩
  · rw [assemble_length, Nat.add_comm]
  · rw [assemble_length]

/-- Settles O5: the opcode fixes the length, no opcode has more than three parameters, and a fetch reads `pc` and
memory alone. -/
theorem lengthIsAFunctionOfTheOpcode : Obligations.LengthIsAFunctionOfTheOpcode := by
  refine ⟨fun cells rest i hd => ?_, fun _ _ hpc hm => Machine.fetch_congr hpc hm⟩
  obtain ⟨op, hop, hlen, hrest⟩ := length_of_decode hd
  have hcount := op.paramCount_le_three
  exact ⟨op, hop, hlen, by omega, by omega, hrest⟩

end Sys2Proof
end

section
/-! The host commands that read the output queue and memory: what each answers, and that only `CONSUME_OUTPUT` of a
non-empty queue changes the engine (60_exceptions.md R119, R120, R122). -/

namespace Sys2Proof.Machine

theorem State.consumeOutput_of_nil {s : State} (h : s.outq = []) : s.consumeOutput = .error .emptyOutput := by
  rw [State.consumeOutput, h]

theorem State.consumeOutput_of_cons {s : State} {v : Int} {rest : List Int} (h : s.outq = v :: rest) :
    s.consumeOutput = .ok (v, { s with outq := rest }) := by
  rw [State.consumeOutput, h]

theorem State.hasOutput_iff (s : State) : s.hasOutput = true ↔ s.outq ≠ [] := by
  rw [State.hasOutput, Bool.not_eq_true', ← Bool.not_eq_true, List.isEmpty_iff]

theorem State.peek_of_neg (s : State) {a : Int} (h : a < 0) : s.peek a = .error .negativeAddress :=
  if_pos h

theorem State.peek_of_nonneg (s : State) {a : Int} (h : 0 ≤ a) : s.peek a = .ok (s.mem.read a.toNat) :=
  if_neg (not_lt.mpr h)

/-- The command passes the pop's answer on, and leaves the state the pop leaves. -/
theorem command_consumeOutput_of_ok {s t : State} {v : Int} (fuel : Nat) (h : s.consumeOutput = .ok (v, t)) :
    command fuel .consumeOutput (some s) = .returned (.word v) t := by
  rw [command, State.command, h]

/-- A pop that fails leaves the engine as it was (60_exceptions.md R113). -/
theorem command_consumeOutput_of_error {s : State} {e : HostError} (fuel : Nat) (h : s.consumeOutput = .error e) :
    command fuel .consumeOutput (some s) = .returned (.failed e) s := by
  rw [command, State.command, h]

/-- A read of an address there is (20_memory.md R30) is answered with the cell; above `ADDR_MAX` there is none. -/
theorem command_peek_of_ok {s : State} {a v : Int} (fuel : Nat) (h : s.peek a = .ok v)
    (ha : Config.width.holds a = true) : command fuel (.peek a) (some s) = .returned (.word v) s := by
  rw [command, State.command, h]
  exact if_pos ha

/-- A failing read is answered before the port's range is asked for, so at a negative address of any size. -/
theorem command_peek_of_error {s : State} {a : Int} {e : HostError} (fuel : Nat) (h : s.peek a = .error e) :
    command fuel (.peek a) (some s) = .returned (.failed e) s := by
  rw [command, State.command, h]

/-- Settles O52: the pop splits on the queue alone, and the command returns what the pop gives. -/
theorem consumeOutputTakesTheOldest : Obligations.ConsumeOutputTakesTheOldest := fun fuel _ =>
  ⟨fun h => command_consumeOutput_of_error fuel (State.consumeOutput_of_nil h),
    fun _ _ h => command_consumeOutput_of_ok fuel (State.consumeOutput_of_cons h)⟩

/-- Settles O53: the flag returned is `hasOutput` of the state, which is returned unchanged. -/
theorem hasOutputTellsNonEmpty : Obligations.HasOutputTellsNonEmpty := fun _ s =>
  ⟨s.hasOutput, rfl, s.hasOutput_iff⟩

/-- Settles O54: the sign of the address decides whether the read fails, and neither answer changes the engine. -/
theorem peekReadsWithoutChange : Obligations.PeekReadsWithoutChange := fun fuel s _ =>
  ⟨fun hneg => command_peek_of_error fuel (s.peek_of_neg hneg),
    fun hnonneg hword => command_peek_of_ok fuel (s.peek_of_nonneg hnonneg) hword⟩

end Sys2Proof.Machine
end

section
/-! The decoder and the encoder undo each other (30_encoding.md R51, R66), and the list of the legal instruction
words (R53). -/

namespace Sys2Proof

/-! ### Modes and digits -/

/-- The mode of a source parameter (20_memory.md R34). -/
def Source.mode : Source → Mode
  | .position _ => .position
  | .immediate _ => .immediate
  | .relative _ => .relative

/-- The mode of a write target (20_memory.md R34, R39). -/
def Target.mode : Target → Mode
  | .position _ => .position
  | .relative _ => .relative

@[simp] theorem Source.make_mode_param (a : Source) : Source.make a.mode a.param = a := by cases a <;> rfl

@[simp] theorem Target.make_mode_param (d : Target) : Target.make d.mode d.param = d := by cases d <;> rfl

theorem Source.ofDigit_modeCode (a : Source) : Mode.ofDigit a.modeCode = a.mode := by cases a <;> rfl

theorem Target.ofDigit_modeCode (d : Target) : Mode.ofDigit d.modeCode = d.mode := by cases d <;> rfl

theorem Target.modeCode_ne_one (d : Target) : d.modeCode ≠ 1 := by
  cases d <;> simp [Target.modeCode]

/-- The digits of a number put together as R66 does it are the digits it was put together from. -/
theorem digits_of_sum {c m1 m2 m3 n : Nat} (hn : n = c + 100 * m1 + 1000 * m2 + 10000 * m3) (hc : c < 100)
    (h1 : m1 ≤ 9) (h2 : m2 ≤ 9) (h3 : m3 ≤ 9) :
    n % 100 = c ∧ modeDigit n 1 = m1 ∧ modeDigit n 2 = m2 ∧ modeDigit n 3 = m3 ∧ highDigits n = 0 := by
  simp only [modeDigit, digit, highDigits]
  norm_num
  omega

/-- The mode digits that an opcode may carry: 0 to 2, 0 where it has no parameter, not 1 at its write target
(30_encoding.md R58 to R60). -/
def Opcode.takesModes (op : Opcode) (m1 m2 m3 : Nat) : Prop :=
  m1 ≤ 2 ∧ m2 ≤ 2 ∧ m3 ≤ 2 ∧ (op.paramCount < 1 → m1 = 0) ∧ (op.paramCount < 2 → m2 = 0) ∧
    (op.paramCount < 3 → m3 = 0) ∧ (op.target? = some 1 → m1 ≠ 1) ∧ (op.target? = some 3 → m3 ≠ 1)

theorem Opcode.code_lt (op : Opcode) : op.code < 100 := by cases op <;> decide

/-- A write target is parameter 1 or parameter 3 (20_memory.md R40). -/
theorem Opcode.target?_eq_some {op : Opcode} {k : Nat} (h : op.target? = some k) : k = 1 ∨ k = 3 := by
  cases op <;> simp_all [Opcode.target?]

/-- A word put together from an opcode and digits it may carry is accepted, with these digits as its modes. -/
theorem decodeHead_headWord {op : Opcode} {m1 m2 m3 : Nat} (h : op.takesModes m1 m2 m3) :
    decodeHead (headWord op.code m1 m2 m3) = .ok ⟨op, .ofDigit m1, .ofDigit m2, .ofDigit m3⟩ := by
  obtain ⟨h1, h2, h3, z1, z2, z3, t1, t3⟩ := h
  obtain ⟨dc, d1, d2, d3, dh⟩ :=
    digits_of_sum (n := op.code + 100 * m1 + 1000 * m2 + 10000 * m3) rfl op.code_lt (by omega) (by omega) (by omega)
  rw [decodeHead_eq_ok, headWord, Int.ofNat_eq_natCast, Int.toNat_natCast, hasIllegalMode_eq_false,
    hasReservedDigit_eq_false, hasImmediateTarget_eq_false, d1, d2, d3, dh]
  refine ⟨Int.natCast_nonneg _, dc, ⟨fun _ => h1, fun _ => h2, fun _ => h3⟩, ⟨z1, z2, z3, rfl⟩, ?_, rfl, rfl, rfl⟩
  intro k hk
  rcases Opcode.target?_eq_some hk with rfl | rfl
  · rw [d1]; exact t1 hk
  · rw [d3]; exact t3 hk

/-! ### Decoding an encoding -/

/-- What the word of an instruction says before its parameters are fetched (30_encoding.md R54). -/
def Instr.head : Instr → Head
  | .add a b d => ⟨.add, a.mode, b.mode, d.mode⟩
  | .mul a b d => ⟨.mul, a.mode, b.mode, d.mode⟩
  | .inp d => ⟨.inp, d.mode, .position, .position⟩
  | .out a => ⟨.out, a.mode, .position, .position⟩
  | .jt a t => ⟨.jt, a.mode, t.mode, .position⟩
  | .jf a t => ⟨.jf, a.mode, t.mode, .position⟩
  | .lt a b d => ⟨.lt, a.mode, b.mode, d.mode⟩
  | .eq a b d => ⟨.eq, a.mode, b.mode, d.mode⟩
  | .arb a => ⟨.arb, a.mode, .position, .position⟩
  | .hlt => ⟨.hlt, .position, .position, .position⟩

section
open Laws.Encodes

/-- The modes of two sources and a write target, for the opcodes that have them as their parameters. -/
theorem Opcode.takesModes_three {op : Opcode} (hn : op.paramCount = 3) (ht : op.target? = some 3)
    (a b : Source) (d : Target) : op.takesModes a.modeCode b.modeCode d.modeCode :=
  ⟨source_modeCode a, source_modeCode b, target_modeCode d, by omega, by omega, by omega, by simp [ht],
    fun _ => d.modeCode_ne_one⟩

theorem Opcode.takesModes_two {op : Opcode} (hn : op.paramCount = 2) (ht : op.target? = none) (a t : Source) :
    op.takesModes a.modeCode t.modeCode 0 :=
  ⟨source_modeCode a, source_modeCode t, by decide, by omega, by omega, fun _ => rfl, by simp [ht], by simp [ht]⟩

theorem Opcode.takesModes_one {op : Opcode} (hn : op.paramCount = 1) (ht : op.target? = none) (a : Source) :
    op.takesModes a.modeCode 0 0 :=
  ⟨source_modeCode a, by decide, by decide, by omega, fun _ => rfl, fun _ => rfl, by simp [ht], by simp [ht]⟩

theorem Opcode.takesModes_inp (d : Target) : Opcode.inp.takesModes d.modeCode 0 0 :=
  ⟨target_modeCode d, by decide, by decide, fun h => absurd h (by decide), fun _ => rfl, fun _ => rfl,
    fun _ => d.modeCode_ne_one, fun h => absurd h (by decide)⟩

end

/-- The word of an instruction is accepted and gives its opcode and its modes back. -/
theorem Instr.decodeHead_headWord (i : Instr) : decodeHead i.headWord = .ok i.head := by
  have three {op : Opcode} (hn : op.paramCount = 3) (ht : op.target? = some 3) (a b : Source) (d : Target) :
      decodeHead (Sys2Proof.headWord op.code a.modeCode b.modeCode d.modeCode) = .ok ⟨op, a.mode, b.mode, d.mode⟩ := by
    rw [Sys2Proof.decodeHead_headWord (op.takesModes_three hn ht a b d), a.ofDigit_modeCode, b.ofDigit_modeCode,
      d.ofDigit_modeCode]
  have two {op : Opcode} (hn : op.paramCount = 2) (ht : op.target? = none) (a t : Source) :
      decodeHead (Sys2Proof.headWord op.code a.modeCode t.modeCode 0) = .ok ⟨op, a.mode, t.mode, .position⟩ := by
    rw [Sys2Proof.decodeHead_headWord (op.takesModes_two hn ht a t), a.ofDigit_modeCode, t.ofDigit_modeCode]
    rfl
  have one {op : Opcode} (hn : op.paramCount = 1) (ht : op.target? = none) (a : Source) :
      decodeHead (Sys2Proof.headWord op.code a.modeCode 0 0) = .ok ⟨op, a.mode, .position, .position⟩ := by
    rw [Sys2Proof.decodeHead_headWord (op.takesModes_one hn ht a), a.ofDigit_modeCode]
    rfl
  cases i with
  | add a b d => exact three (op := .add) rfl rfl a b d
  | mul a b d => exact three (op := .mul) rfl rfl a b d
  | lt a b d => exact three (op := .lt) rfl rfl a b d
  | eq a b d => exact three (op := .eq) rfl rfl a b d
  | jt a t => exact two (op := .jt) rfl rfl a t
  | jf a t => exact two (op := .jf) rfl rfl a t
  | out a => exact one (op := .out) rfl rfl a
  | arb a => exact one (op := .arb) rfl rfl a
  | inp d =>
    exact (Sys2Proof.decodeHead_headWord (Opcode.takesModes_inp d)).trans (by rw [d.ofDigit_modeCode]; rfl)
  | hlt => rfl

theorem Instr.params_length (i : Instr) : i.params.length = i.head.op.paramCount := by cases i <;> rfl

/-- The modes and the cells of an instruction put together again are the instruction. -/
theorem Instr.assemble_head_params (i : Instr) (rest : List Int) : assemble i.head (i.params ++ rest) = i := by
  cases i <;> simp [assemble, Instr.head, Instr.params]

/-- Settles O2: the word gives the opcode and the modes back, and the cells after it are the parameters. -/
theorem decodeOfEncodeGivesTheInstruction : Obligations.DecodeOfEncodeGivesTheInstruction := by
  intro i rest
  rw [decode_eq_ok]
  refine ⟨i.head, i.decodeHead_headWord, (i.assemble_head_params rest).symm, ?_⟩
  rw [← i.params_length]
  exact List.drop_left.symm

/-! ### Encoding what was decoded -/

/-- Settles O3: the word of the instruction decoded is the word it was decoded from, and its parameters are the cells
after that word. -/
theorem decodedCellsAreTheEncoding : Obligations.DecodedCellsAreTheEncoding := by
  intro cells rest i hd hlen
  obtain ⟨h, hhead, rfl, rfl⟩ := decode_eq_ok.mp hd
  rw [assemble_length] at hlen
  cases cells with
  | nil => cases hlen
  | cons I ps =>
    have hps : h.op.paramCount ≤ ps.length := Nat.le_of_succ_le_succ hlen
    have hword : (assemble h ps).headWord = I := headWord_assemble hhead ps
    have hparams : (assemble h ps).params = ps.take h.op.paramCount := assemble_params h ps hps
    calc encode (assemble h ps) ++ ps.drop h.op.paramCount
        = I :: (ps.take h.op.paramCount ++ ps.drop h.op.paramCount) := by rw [encode, hword, hparams]; rfl
      _ = I :: ps := by rw [List.take_append_drop]

/-- A word written out decodes to the instruction whose word it is. -/
theorem decode_of_headWord {I : Int} (i : Instr) (rest : List Int) (h : i.headWord = I) :
    decode (I :: (i.params ++ rest)) = .ok (i, rest) :=
  h ▸ decodeOfEncodeGivesTheInstruction i rest

/-- Settles O1: each number written out is the word of the instruction beside it, so O2 decodes it. -/
theorem writtenOutWordsDecode : Obligations.WrittenOutWordsDecode := by
  intro p q r rest
  refine ⟨decode_of_headWord (.add (.position p) (.position q) (.position r)) rest ?_,
    decode_of_headWord (.add (.immediate p) (.immediate q) (.position r)) rest ?_,
    decode_of_headWord (.mul (.position p) (.immediate q) (.position r)) rest ?_,
    decode_of_headWord (.inp (.relative p)) rest ?_,
    decode_of_headWord (.out (.relative p)) rest ?_,
    decode_of_headWord (.jt (.position p) (.immediate q)) rest ?_,
    decode_of_headWord (.jf (.position p) (.immediate q)) rest ?_,
    decode_of_headWord (.lt (.immediate p) (.position q) (.relative r)) rest ?_,
    decode_of_headWord (.eq (.position p) (.immediate q) (.position r)) rest ?_,
    decode_of_headWord (.arb (.immediate p)) rest ?_,
    decode_of_headWord .hlt rest ?_⟩
  all_goals simp [Instr.headWord, headWord, Source.modeCode, Target.modeCode]

/-! ### The legal instruction words -/

/-- A source in each mode, its cell holding 0. -/
def Source.forms : List Source := [.position 0, .immediate 0, .relative 0]

/-- A write target in each mode it may have, its cell holding 0. -/
def Target.forms : List Target := [.position 0, .relative 0]

/-- Each instruction of the opcode map in each form of its parameters, every parameter cell holding 0. -/
def Instr.forms : List Instr :=
  let storing := Source.forms.flatMap fun a => Source.forms.flatMap fun b => Target.forms.flatMap fun d =>
    [Instr.add a b d, .mul a b d, .lt a b d, .eq a b d]
  let jumping := Source.forms.flatMap fun a => Source.forms.flatMap fun t => [Instr.jt a t, .jf a t]
  let unary := Source.forms.flatMap fun a => [Instr.out a, .arb a]
  storing ++ jumping ++ unary ++ Target.forms.map Instr.inp ++ [.hlt]

theorem Source.make_zero_mem_forms (m : Mode) : Source.make m 0 ∈ Source.forms := by cases m <;> decide

theorem Target.make_zero_mem_forms (m : Mode) : Target.make m 0 ∈ Target.forms := by cases m <;> decide

/-- Whatever head it has, an instruction with no parameter cell set is one of the forms. -/
theorem assemble_nil_mem_forms (h : Head) : assemble h [] ∈ Instr.forms := by
  obtain ⟨op, m1, m2, m3⟩ := h
  have s1 := Source.make_zero_mem_forms m1
  have s2 := Source.make_zero_mem_forms m2
  have d1 := Target.make_zero_mem_forms m1
  have d3 := Target.make_zero_mem_forms m3
  cases op <;> simp [assemble, Instr.forms, s1, s2, d1, d3]

/-- A word is legal exactly when it is the word of one of the forms. -/
theorem mem_forms_headWord_iff (I : Int) : I ∈ Instr.forms.map Instr.headWord ↔ ∃ h, decodeHead I = .ok h := by
  rw [List.mem_map]
  constructor
  · rintro ⟨i, -, rfl⟩
    exact ⟨i.head, i.decodeHead_headWord⟩
  · rintro ⟨h, hd⟩
    exact ⟨assemble h [], assemble_nil_mem_forms h, headWord_assemble hd []⟩

/-- Settles O4: the legal words are the words of the forms, of which there are 99, no two alike. -/
theorem exactlyNinetyNineLegalWords : Obligations.ExactlyNinetyNineLegalWords :=
  ⟨Instr.forms.map Instr.headWord, by decide, by decide, mem_forms_headWord_iff⟩

end Sys2Proof
end

section
/-! Fetch and decode inside a step (30_encoding.md R54 to R60): which words the decoder refuses and with what, what a
fetch gives, and the step that follows from it. -/

namespace Sys2Proof

/-! ### Refused instruction words -/

/-- The values of two digits that select no instruction (30_encoding.md R53). -/
theorem Opcode.ofNat?_eq_none {n : Nat} : Opcode.ofNat? n = none ↔ n ∉ [1, 2, 3, 4, 5, 6, 7, 8, 9, 99] := by
  constructor
  · intro h hn
    simp only [List.mem_cons, List.not_mem_nil, or_false] at hn
    rcases hn with rfl | rfl | rfl | rfl | rfl | rfl | rfl | rfl | rfl | rfl <;> cases h
  · intro h
    cases ho : Opcode.ofNat? n with
    | none => rfl
    | some op =>
      obtain rfl := Opcode.ofNat?_eq_some.mp ho
      exact absurd (by cases op <;> decide) h

theorem decodeHead_of_neg {I : Int} (h : I < 0) : decodeHead I = .error (.illegalOpcode I) := if_pos h

theorem decodeHead_of_no_opcode {I : Int} (h0 : 0 ≤ I) (h : Opcode.ofNat? (I.toNat % 100) = none) :
    decodeHead I = .error (.illegalOpcode I) := by
  rw [decodeHead, if_neg (not_lt.mpr h0), h]

/-- The tests on the digits of a word that has an opcode of the map, in their order (30_encoding.md R58 to R60). -/
theorem decodeHead_of_opcode {I : Int} {op : Opcode} (h0 : 0 ≤ I) (h : Opcode.ofNat? (I.toNat % 100) = some op) :
    decodeHead I =
      if hasIllegalMode op I.toNat then .error (.illegalMode I)
      else if hasReservedDigit op I.toNat then .error (.illegalMode I)
      else if hasImmediateTarget op I.toNat then .error (.invalidWriteTarget I)
      else .ok ⟨op, Mode.ofDigit (modeDigit I.toNat 1), Mode.ofDigit (modeDigit I.toNat 2),
        Mode.ofDigit (modeDigit I.toNat 3)⟩ := by
  rw [decodeHead, if_neg (not_lt.mpr h0), h]

theorem decodeHead_of_illegal_digit {I : Int} {op : Opcode} (h0 : 0 ≤ I)
    (h : Opcode.ofNat? (I.toNat % 100) = some op)
    (hbad : ¬ (hasIllegalMode op I.toNat = false ∧ hasReservedDigit op I.toNat = false)) :
    decodeHead I = .error (.illegalMode I) := by
  rw [decodeHead_of_opcode h0 h]
  cases h1 : hasIllegalMode op I.toNat with
  | true => rfl
  | false =>
    cases h2 : hasReservedDigit op I.toNat with
    | true => rfl
    | false => exact absurd ⟨h1, h2⟩ hbad

/-- The 36 words that are legal but for a write target in mode 1, besides 103. -/
theorem decodeHead_immediate_third :
    ∀ c ∈ ([1, 2, 7, 8] : List Int), ∀ m1 ∈ ([0, 1, 2] : List Int), ∀ m2 ∈ ([0, 1, 2] : List Int),
      decodeHead (c + 100 * m1 + 1000 * m2 + 10000) =
        .error (.invalidWriteTarget (c + 100 * m1 + 1000 * m2 + 10000)) := by
  decide

end Sys2Proof

namespace Sys2Proof.Machine

/-! ### What a fetch gives -/

/-- Order 6 of 60_exceptions.md R109: the range tests of the first `n` parameter cells. -/
def paramTests (w : Width) (s : State) (n : Nat) : List FaultTest :=
  (List.range n).map fun k => outOfRange w (s.pc + Int.ofNat (k + 1))

/-- The instruction that the cells after `pc` make of an accepted word. -/
def instrAt (s : State) (h : Head) : Instr := assemble h (s.mem.cells (s.pc.toNat + 1) 3)

theorem fetch_of_decodeHead_error {w : Width} {s : State} {e : DecodeError} (hpc : 0 ≤ s.pc)
    (hd : decodeHead (instrWord s) = .error e) : fetch w s = .error (decodeFault e) := by
  rw [fetch_of_nonneg w s hpc, hd]

theorem fetch_of_decodeHead_ok {w : Width} {s : State} {h : Head} (hpc : 0 ≤ s.pc)
    (hd : decodeHead (instrWord s) = .ok h) :
    fetch w s = guarded (paramTests w s h.op.paramCount) (instrAt s h) := by
  rw [fetch_of_nonneg w s hpc, hd]
  rfl

/-- From a `pc` in range the last parameter cell decides. -/
theorem fetch_eq_ok_of_holds {w : Width} {s : State} {h : Head} (hpc : 0 ≤ s.pc) (hw : w.holds s.pc = true)
    (hd : decodeHead (instrWord s) = .ok h) (hp : w.holds (s.pc + Int.ofNat h.op.paramCount) = true) :
    fetch w s = .ok (instrAt s h) := by
  rw [fetch_of_decodeHead_ok hpc hd, guarded_eq_ok]
  exact ⟨(firstFault_paramCells hw hpc _).trans (if_pos hp), rfl⟩

/-- All that a fetch which succeeds says. -/
theorem fetch_eq_ok {w : Width} {s : State} {i : Instr} :
    fetch w s = .ok i ↔ 0 ≤ s.pc ∧ ∃ h, decodeHead (instrWord s) = .ok h ∧
      firstFault (paramTests w s h.op.paramCount) = none ∧ instrAt s h = i := by
  rcases lt_or_ge s.pc 0 with hpc | hpc
  · simp [fetch_of_neg w s hpc, not_le.mpr hpc]
  · cases hd : decodeHead (instrWord s) with
    | error e => simp [fetch_of_decodeHead_error hpc hd]
    | ok h => simp [fetch_of_decodeHead_ok hpc hd, guarded_eq_ok, hpc]

theorem decode_cellsAtPc_of_ok {s : State} {h : Head} (hd : decodeHead (instrWord s) = .ok h) :
    decode (cellsAtPc s) = .ok (instrAt s h, (cellsAtPc s).drop (h.op.paramCount + 1)) := by
  rw [decode_cellsAtPc, hd]
  rfl

/-- What the decoder reads at `pc` it reads from the instruction word and the three cells after it. -/
theorem decode_cellsAtPc_eq_ok {s : State} {i : Instr} {rest : List Int} (h : decode (cellsAtPc s) = .ok (i, rest)) :
    ∃ hd, decodeHead (instrWord s) = .ok hd ∧ instrAt s hd = i := by
  obtain ⟨hd, hhead, rfl, -⟩ := decode_eq_ok.mp h
  exact ⟨hd, hhead, rfl⟩

/-! ### The step that follows -/

/-- Settles O12: a step is the step at the default width, which is a function into the states. -/
theorem stepAlwaysAnswersANextState : Obligations.StepAlwaysAnswersANextState := fun s =>
  ⟨stepAt Config.width s, step_eq_stepAt s⟩

theorem step_eq_next {s t : State} : step s = .next t ↔ stepAt Config.width s = t := by
  rw [step_eq_stepAt, Host.Outcome.next.injEq]

theorem stepAt_of_not_runs (w : Width) {s : State} (hr : s.runs = false) : stepAt w s = s := by
  rw [stepAt, hr]
  rfl

/-- Settles O10: the first test of a step is the address check of the fetch. -/
theorem negativePcFaultsAtFetch : Obligations.NegativePcFaultsAtFetch := fun s hr hpc =>
  step_of_fetch_error hr (fetch_of_neg _ s hpc)

/-- A running engine at a word that the decoder refuses takes the fault of the refusal. -/
theorem step_of_decodeHead_error {s : State} {e : DecodeError} (hr : s.runs = true) (hpc : 0 ≤ s.pc)
    (hd : decodeHead (instrWord s) = .error e) : step s = .next (s.takeFault (decodeFault e)) :=
  step_of_fetch_error hr (fetch_of_decodeHead_error hpc hd)

/-- Settles O7: the word is negative, or the opcode map has nothing for its two low digits. -/
theorem illegalOpcodeFaults : Obligations.IllegalOpcodeFaults := by
  intro s hr hpc hI
  refine step_of_decodeHead_error (e := .illegalOpcode (instrWord s)) hr hpc ?_
  rcases lt_or_ge (instrWord s) 0 with hneg | hnonneg
  · exact decodeHead_of_neg hneg
  · refine decodeHead_of_no_opcode hnonneg (Opcode.ofNat?_eq_none.mpr ?_)
    have hdigits := hI.resolve_left (not_lt.mpr hnonneg)
    simp only [List.mem_cons, List.not_mem_nil, or_false] at hdigits ⊢
    omega

/-- Settles O8: each disjunct is one digit that the two digit tests of the decoder exclude. -/
theorem illegalModeFaults : Obligations.IllegalModeFaults := by
  intro s op hr hpc h0 hop hbad
  refine step_of_decodeHead_error (e := .illegalMode (instrWord s)) hr hpc ?_
  have hcode : (instrWord s).toNat % 100 = op.code := by
    rw [Int.ofNat_eq_natCast] at hop
    omega
  refine decodeHead_of_illegal_digit h0 (Opcode.ofNat?_eq_some.mpr hcode) ?_
  rw [hasIllegalMode_eq_false, hasReservedDigit_eq_false]
  simp only [modeDigit, digit, highDigits]
  norm_num
  omega

/-- Settles O9: the decoder refuses each of the 37 words. -/
theorem immediateWriteTargetFaults : Obligations.ImmediateWriteTargetFaults := by
  intro s hr hpc hI
  refine step_of_decodeHead_error (e := .invalidWriteTarget (instrWord s)) hr hpc ?_
  rcases hI with hI | ⟨c, m1, m2, hc, h1, h2, hI⟩
  · rw [hI]
    decide
  · rw [hI]
    exact decodeHead_immediate_third c hc m1 h1 m2 h2

/-- Settles O11: with `pc` in range, the fetch of the parameters faults when the last of them is out of range. -/
theorem parameterBeyondTheTopFaults : Obligations.ParameterBeyondTheTopFaults := by
  intro s h hr hpc hw hd hout
  refine step_of_fetch_error hr ?_
  rw [fetch_of_decodeHead_ok hpc hd, guarded_eq_error]
  exact (firstFault_paramCells hw hpc _).trans (if_neg (by rw [hout]; decide))

/-- Settles O6: the fetch reads what the decoder reads of the cells at `pc`, and is no part of the state. -/
theorem stepRunsTheDecodedInstruction : Obligations.StepRunsTheDecodedInstruction := by
  intro s i rest hr hpc hdec hw hlast
  obtain ⟨h, hd, rfl⟩ := decode_cellsAtPc_eq_ok hdec
  rw [instrAt, assemble_length] at hlast
  exact step_of_fetch_ok hr (fetch_eq_ok_of_holds hpc hw hd hlast)

end Sys2Proof.Machine
end

section
/-! The whole step against the priority table of 60_exceptions.md R109, at every width: the first test of the table
that holds is the fault taken, and with none the instruction at `pc` is committed. -/

namespace Sys2Proof.Machine

/-! ### The table, part by part -/

theorem firstFault_priorityTable_of_neg (w : Width) {s : State} (hpc : s.pc < 0) :
    firstFault (priorityTable w s) = some ⟨.negativeAddress, s.pc⟩ := by
  rw [priorityTable, firstFault_isNegative, if_pos hpc]

/-- Orders 2 to 5 of the table are the tests of the decoder; orders 6 to 10 are asked of an accepted word alone. -/
theorem firstFault_priorityTable_of_nonneg (w : Width) {s : State} (hpc : 0 ≤ s.pc) :
    firstFault (priorityTable w s) = match decodeHead (instrWord s) with
      | .error e => some (decodeFault e)
      | .ok h => (firstFault (paramTests w s h.op.paramCount)).or (firstFault (instrTests w s (instrAt s h))) := by
  rw [priorityTable, firstFault_isNegative, if_neg (not_lt.mpr hpc)]
  rcases lt_or_ge (instrWord s) 0 with hneg | hnonneg
  · simp [decodeHead_of_neg hneg, firstFault, hneg, decodeFault]
  · rw [firstFault, decide_eq_false (not_lt.mpr hnonneg)]
    cases ho : Opcode.ofNat? ((instrWord s).toNat % 100) with
    | none => simp [decodeHead_of_no_opcode hnonneg ho, firstFault, decodeFault]
    | some op =>
      have hd := decodeHead_of_opcode hnonneg ho
      cases h1 : hasIllegalMode op (instrWord s).toNat with
      | true => simp [hd, h1, firstFault, decodeFault]
      | false =>
        cases h2 : hasReservedDigit op (instrWord s).toNat with
        | true => simp [hd, h1, h2, firstFault, decodeFault]
        | false =>
          cases h3 : hasImmediateTarget op (instrWord s).toNat with
          | true => simp [hd, h1, h2, h3, firstFault, decodeFault]
          | false =>
            simp only [h1, h2, h3, Bool.false_eq_true, if_false] at hd
            simp only [hd, decode_cellsAtPc_of_ok hd, firstFault_append, firstFault, h1, h2, h3, Bool.false_eq_true,
              if_false]
            rfl

/-! ### The step by the table -/

/-- A test of the table that holds is the fault of the step. -/
theorem stepAt_of_priorityTable_some {w : Width} {s : State} {f : FaultRecord} (hr : s.runs = true)
    (h : firstFault (priorityTable w s) = some f) : stepAt w s = s.takeFault f := by
  have hattempt : attempt w s = .error f := by
    rw [attempt]
    rcases lt_or_ge s.pc 0 with hpc | hpc
    · rw [firstFault_priorityTable_of_neg w hpc] at h
      rw [fetch_of_neg w s hpc, ← Option.some.inj h]
      rfl
    · rw [firstFault_priorityTable_of_nonneg w hpc] at h
      cases hd : decodeHead (instrWord s) with
      | error e =>
        rw [hd] at h
        rw [fetch_of_decodeHead_error hpc hd, ← Option.some.inj h]
        rfl
      | ok hh =>
        rw [hd] at h
        rw [fetch_of_decodeHead_ok hpc hd]
        simp only [effect_eq_guarded]
        rw [guarded_bind _ _ (instrTests w s) (committed s), guarded_eq_error, firstFault_append]
        exact h
  rw [stepAt, if_pos hr, hattempt]

/-- When no test of the table holds, the cells at `pc` hold an instruction, no test of its own holds, and the step
commits it. -/
theorem stepAt_of_priorityTable_none {w : Width} {s : State} (hr : s.runs = true)
    (h : firstFault (priorityTable w s) = none) :
    ∃ i rest, decode (cellsAtPc s) = .ok (i, rest) ∧ fetch w s = .ok i ∧ firstFault (instrTests w s i) = none ∧
      stepAt w s = committed s i := by
  rcases lt_or_ge s.pc 0 with hpc | hpc
  · rw [firstFault_priorityTable_of_neg w hpc] at h
    cases h
  · rw [firstFault_priorityTable_of_nonneg w hpc] at h
    cases hd : decodeHead (instrWord s) with
    | error e =>
      rw [hd] at h
      cases h
    | ok hh =>
      rw [hd] at h
      obtain ⟨hparams, hinstr⟩ := Option.or_eq_none_iff.mp h
      have hfetch : fetch w s = .ok (instrAt s hh) := by
        rw [fetch_of_decodeHead_ok hpc hd, guarded_eq_ok]
        exact ⟨hparams, rfl⟩
      have heffect : effect w (instrAt s hh) s = .ok (committed s (instrAt s hh)) := by
        rw [effect_eq_guarded, guarded_eq_ok]
        exact ⟨hinstr, rfl⟩
      refine ⟨instrAt s hh, _, decode_cellsAtPc_of_ok hd, hfetch, hinstr, ?_⟩
      rw [stepAt, if_pos hr, attempt, hfetch]
      simp only [bind, Except.bind, heffect]

/-- The latch after a step is the table's answer. -/
theorem stepAt_fault {w : Width} {s : State} (hr : s.runs = true) :
    (stepAt w s).fault = firstFault (priorityTable w s) := by
  cases h : firstFault (priorityTable w s) with
  | some f => rw [stepAt_of_priorityTable_some hr h, State.takeFault_fault]
  | none =>
    obtain ⟨i, -, -, -, -, hs⟩ := stepAt_of_priorityTable_none hr h
    rw [hs, committed_fault, (s.runs_iff.mp hr).1]

/-- The table reads `pc`, `rb` and memory alone. -/
theorem priorityTable_congr {w : Width} {s t : State} (hpc : t.pc = s.pc) (hrb : t.rb = s.rb) (hm : t.mem = s.mem) :
    priorityTable w t = priorityTable w s := by
  have hword : instrWord t = instrWord s := by rw [instrWord, instrWord, hpc, hm]
  have hcells : cellsAtPc t = cellsAtPc s := by rw [cellsAtPc, cellsAtPc, hpc, hm]
  have hinstr : instrTests w t = instrTests w s := funext (instrTests_congr hpc hrb hm)
  rw [priorityTable, priorityTable, hword, hcells, hinstr, hpc]

/-- Settles O13: the step by the table at the default width. -/
theorem stepFollowsThePriorityTable : Obligations.StepFollowsThePriorityTable := by
  intro s hr
  constructor
  · intro f hf
    exact step_eq_next.mpr (stepAt_of_priorityTable_some hr hf)
  · intro hnone
    obtain ⟨i, rest, hdec, hfetch, -, hs⟩ := stepAt_of_priorityTable_none hr hnone
    have hstep : step s = .next (committed s i) := step_eq_next.mpr hs
    refine ⟨i, rest, committed s i, hdec, (step_of_fetch_ok hr hfetch).symm.trans hstep, hstep, ?_⟩
    rw [committed_fault, (s.runs_iff.mp hr).1]

end Sys2Proof.Machine
end

section
/-! Each instruction's result (40_arithmetic.md, 41_io.md, 42_jumps.md, 43_compare.md, 44_relbase_halt.md): its tests
are those of the priority table, and what it commits is written out. -/

namespace Sys2Proof.Machine

/-! ### What is committed, without the model's truth values -/

theorem truthWord_isLess (x y : Int) : truthWord (isLess x y) = if x < y then 1 else 0 := by
  simp [truthWord, isLess]

theorem truthWord_isEqual (x y : Int) : truthWord (isEqual x y) = if x = y then 1 else 0 := by
  simp [truthWord, isEqual]

theorem isNonZero_iff (x : Int) : isNonZero x = true ↔ x ≠ 0 := decide_eq_true_iff

theorem isZero_iff (x : Int) : isZero x = true ↔ x = 0 := decide_eq_true_iff

theorem committed_lt (s : State) (a b : Source) (d : Target) : committed s (.lt a b d) = { s with
    mem := s.mem.write (targetAddress s d).toNat (if sourceValue s a < sourceValue s b then 1 else 0)
    pc := s.pc + 4, status := .ready } := by
  rw [committed, truthWord_isLess]

theorem committed_eq (s : State) (a b : Source) (d : Target) : committed s (.eq a b d) = { s with
    mem := s.mem.write (targetAddress s d).toNat (if sourceValue s a = sourceValue s b then 1 else 0)
    pc := s.pc + 4, status := .ready } := by
  rw [committed, truthWord_isEqual]

theorem committed_jt (s : State) (a t : Source) : committed s (.jt a t) = { s with
    pc := if sourceValue s a ≠ 0 then sourceValue s t else s.pc + 3, status := .ready } := by
  simp only [committed, isNonZero_iff]

theorem committed_jf (s : State) (a t : Source) : committed s (.jf a t) = { s with
    pc := if sourceValue s a = 0 then sourceValue s t else s.pc + 3, status := .ready } := by
  simp only [committed, isZero_iff]

/-- IN with no input waiting commits the status alone (41_io.md R75). -/
theorem committed_inp_nil {s : State} (d : Target) (hq : s.inq = []) :
    committed s (.inp d) = { s with status := .suspendedAwaitingInput } := by
  simp only [committed, hq]

/-- IN with input waiting takes the oldest value (41_io.md R75). -/
theorem committed_inp_cons {s : State} (d : Target) {v : Int} {rest : List Int} (hq : s.inq = v :: rest) :
    committed s (.inp d) = { s with
      mem := s.mem.write (targetAddress s d).toNat v, inq := rest, pc := s.pc + 2, status := .ready } := by
  simp only [committed, hq]

/-! ### The two ends of an instruction -/

theorem exec_of_pass {i : Instr} {s : State} (h : firstFault (instrTests Config.width s i) = none) :
    exec i s = .next (committed s i) := by
  rw [exec_eq, h]

theorem exec_of_fault {i : Instr} {s : State} {f : FaultRecord}
    (h : firstFault (instrTests Config.width s i) = some f) : exec i s = .next (s.takeFault f) := by
  rw [exec_eq, h]

/-! ### The instructions -/

/-- Settles O17: the tests of the section are ADD's, and the sum is what it commits. -/
theorem addStoresTheSum : Obligations.AddStoresTheSum := fun a b d _ =>
  ⟨rfl, fun h => exec_of_pass (i := .add a b d) h, fun _ h => exec_of_fault (i := .add a b d) h⟩

/-- Settles O18: the tests of the section are MUL's, and the product is what it commits. -/
theorem mulStoresTheProduct : Obligations.MulStoresTheProduct := fun a b d _ =>
  ⟨rfl, fun h => exec_of_pass (i := .mul a b d) h, fun _ h => exec_of_fault (i := .mul a b d) h⟩

/-- Settles O19: with every test passed IN commits, and its commit phase splits on the queue. -/
theorem inTakesTheOldestInput : Obligations.InTakesTheOldestInput := fun d _ _ _ hq h =>
  (exec_of_pass (i := .inp d) h).trans (congrArg _ (committed_inp_cons d hq))

/-- Settles O20: with every test passed IN commits, and on an empty queue it commits the status alone. -/
theorem inWaitsOnAnEmptyQueue : Obligations.InWaitsOnAnEmptyQueue := fun d _ hq h =>
  (exec_of_pass (i := .inp d) h).trans (congrArg _ (committed_inp_nil d hq))

/-- Settles O21: no test of IN reads the queue. -/
theorem inFaultsBeforeTheQueueIsTested : Obligations.InFaultsBeforeTheQueueIsTested := by
  intro d s q f h
  have htests : instrTests Config.width { s with inq := q } (.inp d) = instrTests Config.width s (.inp d) :=
    instrTests_congr rfl rfl rfl _
  exact exec_of_fault (htests ▸ h)

/-- Settles O22: the tests of the section are OUT's, and the appended operand is what it commits. -/
theorem outAppendsTheOperand : Obligations.OutAppendsTheOperand := fun a _ =>
  ⟨rfl, fun h => exec_of_pass (i := .out a) h, fun _ h => exec_of_fault (i := .out a) h⟩

/-- Settles O23: both operands are among the tests, and the commit phase chooses the new `pc`. -/
theorem jtJumpsOnNonZero : Obligations.JtJumpsOnNonZero := fun a t s =>
  ⟨rfl, fun h => (exec_of_pass (i := .jt a t) h).trans (congrArg _ (committed_jt s a t)),
    fun _ h => exec_of_fault (i := .jt a t) h⟩

/-- Settles O24: as O23, with the condition of JF. -/
theorem jfJumpsOnZero : Obligations.JfJumpsOnZero := fun a t s =>
  ⟨rfl, fun h => (exec_of_pass (i := .jf a t) h).trans (congrArg _ (committed_jf s a t)),
    fun _ h => exec_of_fault (i := .jf a t) h⟩

/-- Settles O25: LT has no test on its result, and commits the comparison's Word. -/
theorem ltStoresTheComparison : Obligations.LtStoresTheComparison := fun a b d s =>
  ⟨rfl, fun h => (exec_of_pass (i := .lt a b d) h).trans (congrArg _ (committed_lt s a b d)),
    fun _ h => exec_of_fault (i := .lt a b d) h⟩

/-- Settles O26: as O25, with equality. -/
theorem eqStoresTheComparison : Obligations.EqStoresTheComparison := fun a b d s =>
  ⟨rfl, fun h => (exec_of_pass (i := .eq a b d) h).trans (congrArg _ (committed_eq s a b d)),
    fun _ h => exec_of_fault (i := .eq a b d) h⟩

/-- Settles O27: the operand and both range tests read the old base. -/
theorem arbAddsToTheBase : Obligations.ArbAddsToTheBase := fun a _ =>
  ⟨rfl, fun h => exec_of_pass (i := .arb a) h, fun _ h => exec_of_fault (i := .arb a) h⟩

/-- A word whose opcode is HLT is 99: every digit above the opcode is a reserved one (30_encoding.md R60). -/
theorem eq_of_decodeHead_hlt {I : Int} {h : Head} (hd : decodeHead I = .ok h) (hop : h.op = .hlt) : I = 99 := by
  have hword : (assemble h []).headWord = I := headWord_assemble hd []
  rw [← hword, assemble, hop]
  rfl

/-- Settles O28: HLT has no tests and no parameters, so neither its execution nor its fetch can fault. -/
theorem hltHaltsInPlace : Obligations.HltHaltsInPlace := by
  refine ⟨rfl, fun I h => eq_of_decodeHead_hlt, fun s => exec_of_pass rfl, fun s hr hpc hI => ?_⟩
  have hhead : decodeHead (instrWord s) = .ok Instr.hlt.head := hI ▸ Instr.hlt.decodeHead_headWord
  have hfetch : fetch Config.width s = .ok .hlt := fetch_of_decodeHead_ok hpc hhead
  rw [step_of_fetch_ok hr hfetch]
  exact exec_of_pass rfl

end Sys2Proof.Machine
end

section
/-! Frames: what an instruction leaves unchanged, first for the commit phase, then for `exec` (whose other end, a fault,
changes the latch alone), then instruction by instruction. -/

namespace Sys2Proof.Machine

/-! ### The commit phase -/

/-- The instructions that store, each with the Word it stores; IN only with input waiting. -/
theorem storeOf_cases {s : State} {i : Instr} {d : Target} {v : Int} (h : storeOf s i = some (d, v)) :
    (∃ a b, i = .add a b d ∧ v = sourceValue s a + sourceValue s b) ∨
    (∃ a b, i = .mul a b d ∧ v = sourceValue s a * sourceValue s b) ∨
    (∃ a b, i = .lt a b d ∧ v = if sourceValue s a < sourceValue s b then 1 else 0) ∨
    (∃ a b, i = .eq a b d ∧ v = if sourceValue s a = sourceValue s b then 1 else 0) ∨
    (i = .inp d ∧ s.inq.head? = some v) := by
  cases i with
  | add a b e => cases h; exact .inl ⟨a, b, rfl, rfl⟩
  | mul a b e => cases h; exact .inr (.inl ⟨a, b, rfl, rfl⟩)
  | lt a b e => cases h; exact .inr (.inr (.inl ⟨a, b, rfl, rfl⟩))
  | eq a b e => cases h; exact .inr (.inr (.inr (.inl ⟨a, b, rfl, rfl⟩)))
  | inp e =>
    obtain ⟨u, hu, he⟩ := Option.map_eq_some_iff.mp h
    cases he
    exact .inr (.inr (.inr (.inr ⟨rfl, hu⟩)))
  | out _ | jt _ _ | jf _ _ | arb _ | hlt => cases h

/-- The tests of an instruction that stores include those of its write target. -/
theorem targetTests_of_storeOf {w : Width} {s : State} {i : Instr} {d : Target} {v : Int}
    (h : storeOf s i = some (d, v)) (ht : firstFault (instrTests w s i) = none) :
    firstFault (targetTests w s d) = none := by
  rcases storeOf_cases h with ⟨a, b, rfl, -⟩ | ⟨a, b, rfl, -⟩ | ⟨a, b, rfl, -⟩ | ⟨a, b, rfl, -⟩ | ⟨rfl, -⟩
  case inr.inr.inr.inr => exact (firstFault_append_eq_none.mp ht).1
  all_goals exact (firstFault_append_eq_none.mp (firstFault_append_eq_none.mp ht).1).2

/-- An instruction that does not store commits memory as it was. -/
theorem committed_mem_of_storeOf_none {s : State} {i : Instr} (h : storeOf s i = none) :
    (committed s i).mem = s.mem := by
  cases i with
  | inp d =>
    cases hq : s.inq with
    | nil => rw [committed_inp_nil d hq]
    | cons v rest => simp [storeOf, hq] at h
  | add _ _ _ | mul _ _ _ | lt _ _ _ | eq _ _ _ => cases h
  | out _ | jt _ _ | jf _ _ | arb _ | hlt => rfl

/-- Only an instruction that stores commits another memory, and it changes the cell of its write target alone. -/
theorem committed_mem_read {s : State} {i : Instr} {d : Target} {v : Int} (h : storeOf s i = some (d, v))
    (ht : firstFault (instrTests Config.width s i) = none) {n : Nat} (hn : writeTarget Config.width s d ≠ .ok n) :
    (committed s i).mem.read n = s.mem.read n := by
  obtain ⟨hmem, -, -, -⟩ := committed_of_storeOf h
  rw [hmem]
  refine Memory.read_write_other _ _ fun hcell => hn ?_
  rw [writeTarget_eq_guarded, guarded_eq_ok]
  exact ⟨targetTests_of_storeOf h ht, hcell.symm⟩

/-- IN takes at most the head of the queue. -/
theorem committed_inp_inq (s : State) (d : Target) :
    (committed s (.inp d)).inq = s.inq ∨ (committed s (.inp d)).inq = s.inq.tail := by
  cases hq : s.inq with
  | nil => exact .inl (by rw [committed_inp_nil d hq, hq])
  | cons v rest => exact .inr (by rw [committed_inp_cons d hq]; rfl)

/-! ### `exec` -/

/-- A fault is precise, since the commit phase keeps the latch and taking a fault keeps everything else. -/
theorem exec_precise {i : Instr} {s t : State} (h : exec i s = .next t) :
    t.fault = s.fault ∨ t = { s with fault := t.fault } := by
  rcases exec_cases h with ⟨-, rfl⟩ | ⟨f, -, rfl⟩
  · exact .inl (committed_fault s i)
  · exact .inr rfl

/-- What the commit phase and the taking of a fault both keep, `exec` keeps. -/
theorem exec_keeps {α : Type} (π : State → α) {i : Instr} {s t : State} (h : exec i s = .next t)
    (hfault : ∀ f, π (s.takeFault f) = π s)
    (hcommit : firstFault (instrTests Config.width s i) = none → π (committed s i) = π s) : π t = π s := by
  rcases exec_cases h with ⟨ht, rfl⟩ | ⟨f, -, rfl⟩
  · exact hcommit ht
  · exact hfault f

section
variable {i : Instr} {s t : State} (h : exec i s = .next t)
include h

theorem exec_rb (hi : ∀ a, i ≠ .arb a) : t.rb = s.rb :=
  exec_keeps State.rb h (fun _ => rfl) (fun _ => committed_rb hi)

theorem exec_inq (hi : ∀ d, i ≠ .inp d) : t.inq = s.inq :=
  exec_keeps State.inq h (fun _ => rfl) (fun _ => committed_inq hi)

theorem exec_outq (hi : ∀ a, i ≠ .out a) : t.outq = s.outq :=
  exec_keeps State.outq h (fun _ => rfl) (fun _ => committed_outq hi)

theorem exec_mem (hi : storeOf s i = none) : t.mem = s.mem :=
  exec_keeps State.mem h (fun _ => rfl) (fun _ => committed_mem_of_storeOf_none hi)

theorem exec_mem_read {d : Target} {v : Int} (hi : storeOf s i = some (d, v)) {n : Nat}
    (hn : writeTarget Config.width s d ≠ .ok n) : t.mem.read n = s.mem.read n :=
  exec_keeps (fun u => u.mem.read n) h (fun _ => rfl) (fun ht => committed_mem_read hi ht hn)

end

/-! ### Instruction by instruction -/

/-- The frame of an instruction that stores and is not IN. -/
theorem exec_frame_of_storeOf {i : Instr} {s t : State} {d : Target} {v : Int} (h : exec i s = .next t)
    (hi : storeOf s i = some (d, v)) (hinp : ∀ e, i ≠ .inp e) :
    t.rb = s.rb ∧ t.inq = s.inq ∧ t.outq = s.outq ∧ (t.fault = s.fault ∨ t = { s with fault := t.fault }) ∧
      ∀ n : Nat, writeTarget Config.width s d ≠ .ok n → t.mem.read n = s.mem.read n := by
  have harb : ∀ a, i ≠ .arb a := by rintro a rfl; cases hi
  have hout : ∀ a, i ≠ .out a := by rintro a rfl; cases hi
  exact ⟨exec_rb h harb, exec_inq h hinp, exec_outq h hout, exec_precise h, fun _ hn => exec_mem_read h hi hn⟩

/-- Settles O29: each of the four stores at `d`. -/
theorem storingInstructionsFrame : Obligations.StoringInstructionsFrame := by
  rintro a b d s t (h | h | h | h)
  all_goals exact exec_frame_of_storeOf h rfl nofun

/-- Settles O30: IN stores exactly when the queue holds a value. -/
theorem inputInstructionFrame : Obligations.InputInstructionFrame := by
  intro d s t h
  refine ⟨exec_rb h nofun, exec_outq h nofun, ?_, exec_precise h, fun n hn => ?_⟩
  · rcases exec_cases h with ⟨-, rfl⟩ | ⟨f, -, rfl⟩
    · exact committed_inp_inq s d
    · exact .inl rfl
  · cases hq : s.inq with
    | nil => rw [exec_mem h (by rw [storeOf, hq]; rfl)]
    | cons v rest =>
      have hstore : storeOf s (.inp d) = some (d, v) := by rw [storeOf, hq]; rfl
      exact exec_mem_read h hstore (hn.resolve_left (by rw [hq]; exact List.cons_ne_nil v rest))

/-- The output queue is unchanged or has one value more. -/
theorem exec_out_outq {a : Source} {s t : State} (h : exec (.out a) s = .next t) :
    t.outq = s.outq ∨ ∃ v, t.outq = s.outq ++ [v] := by
  rcases exec_cases h with ⟨-, rfl⟩ | ⟨f, -, rfl⟩
  · exact .inr ⟨sourceValue s a, rfl⟩
  · exact .inl rfl

/-- Settles O31: none of the five stores, only ARB writes `rb`, only OUT writes `outq`, and HLT cannot fault. -/
theorem nonStoringInstructionsFrame : Obligations.NonStoringInstructionsFrame := by
  intro a b s t
  refine ⟨fun h => ?_, fun h => ?_, fun h => ?_, fun h => ?_⟩
  · exact ⟨exec_mem h rfl, exec_inq h nofun, exec_rb h nofun, exec_out_outq h, exec_precise h⟩
  · rcases h with h | h
    all_goals
      exact ⟨exec_mem h rfl, exec_inq h nofun, exec_rb h nofun, exec_outq h nofun, exec_precise h⟩
  · exact ⟨exec_mem h rfl, exec_inq h nofun, exec_outq h nofun, exec_precise h⟩
  · obtain rfl := Host.Outcome.next.inj ((exec_of_pass rfl).symm.trans h)
    exact ⟨rfl, rfl, rfl, rfl, rfl, rfl⟩

/-! ### Rules over all instructions -/

/-- A step is precise as an instruction is, whatever its fetch finds. -/
theorem step_precise {s t : State} (h : step s = .next t) :
    t.fault = s.fault ∨ t = { s with fault := t.fault } := by
  obtain rfl := step_eq_next.mp h
  rcases stepAt_cases Config.width s with
    ⟨-, hs⟩ | ⟨-, f, -, hs⟩ | ⟨-, i, f, -, -, hs⟩ | ⟨-, i, -, -, hs⟩ <;> rw [hs]
  · exact .inl rfl
  · exact .inr rfl
  · exact .inr rfl
  · exact .inl (committed_fault s i)

/-- Settles O14: an instruction and a step end in a committed state, which keeps the latch, or in a fault taken. -/
theorem faultChangesOnlyTheLatch : Obligations.FaultChangesOnlyTheLatch :=
  ⟨fun _ _ _ => exec_precise, fun _ _ => step_precise⟩

/-- Settles O32: every instruction that is not an ARB keeps the base. -/
theorem onlyArbWritesTheBase : Obligations.OnlyArbWritesTheBase := by
  intro i s t h hne
  by_contra hno
  exact hne (exec_rb h fun a ha => hno ⟨a, ha⟩)

/-- Settles O33: memory changes only by an instruction that stores, which IN does with input alone. -/
theorem onlyStoringInstructionsChangeMemory : Obligations.OnlyStoringInstructionsChangeMemory := by
  intro i s t h hne
  have hstore : storeOf s i ≠ none := fun hnone => hne (exec_mem h hnone)
  cases i with
  | add a b d => exact .inl ⟨a, b, d, .inl rfl⟩
  | mul a b d => exact .inl ⟨a, b, d, .inr (.inl rfl)⟩
  | lt a b d => exact .inl ⟨a, b, d, .inr (.inr (.inl rfl))⟩
  | eq a b d => exact .inl ⟨a, b, d, .inr (.inr (.inr rfl))⟩
  | inp d => exact .inr ⟨fun hq => hstore (by rw [storeOf, hq]; rfl), d, rfl⟩
  | out _ | jt _ _ | jf _ _ | arb _ | hlt => exact absurd rfl hstore

/-- Settles O34: a fault keeps `pc`, and the commit phase writes it by the table. -/
theorem nextPcOfEachInstruction : Obligations.NextPcOfEachInstruction := by
  intro i s t hnone h
  rcases exec_cases h with ⟨-, rfl⟩ | ⟨f, -, rfl⟩
  · refine ⟨fun hf => absurd ((committed_fault s i).trans hnone) hf, fun _ => ?_⟩
    cases i with
    | inp d =>
      cases hq : s.inq with
      | nil => rw [committed_inp_nil d hq]; rfl
      | cons v rest => rw [committed_inp_cons d hq]; rfl
    | jt a b => rw [committed_jt]
    | jf a b => rw [committed_jf]
    | add _ _ _ | mul _ _ _ | lt _ _ _ | eq _ _ _ | out _ | arb _ | hlt => rfl
  · exact ⟨fun _ => rfl, nofun⟩

end Sys2Proof.Machine
end

section
/-! What a step can see (10_state.md sections 5 and 9, 41_io.md): the table and the instruction at `pc` read `pc`, `rb`
and memory alone, so `status`, `inq` and `outq` enter through the commit phase only. -/

namespace Sys2Proof.Machine

/-! ### Status -/

/-- The status that the commit phase of an instruction leaves (60_exceptions.md section 9). -/
def statusAfter (s : State) : Instr → Status
  | .inp _ => if s.inq = [] then .suspendedAwaitingInput else .ready
  | .out _ => .suspendedAfterOutput
  | .hlt => .halted
  | .add _ _ _ => .ready
  | .mul _ _ _ => .ready
  | .jt _ _ => .ready
  | .jf _ _ => .ready
  | .lt _ _ _ => .ready
  | .eq _ _ _ => .ready
  | .arb _ => .ready

theorem committed_status (s : State) (i : Instr) : (committed s i).status = statusAfter s i := by
  cases i with
  | inp d =>
    cases hq : s.inq with
    | nil => rw [committed_inp_nil d hq, statusAfter, if_pos hq]
    | cons v rest => rw [committed_inp_cons d hq, statusAfter, if_neg (by simp [hq])]
  | _ => rfl

/-- An instruction that leaves the engine waiting is an IN on an empty queue, and moves nothing but the status. -/
theorem committed_waits {s : State} {i : Instr} (h : (committed s i).status = .suspendedAwaitingInput) :
    ∃ d, i = .inp d ∧ s.inq = [] ∧ committed s i = { s with status := .suspendedAwaitingInput } := by
  rw [committed_status] at h
  cases i with
  | inp d =>
    have hq : s.inq = [] := by
      by_contra hne
      rw [statusAfter, if_neg hne] at h
      cases h
    exact ⟨d, rfl, hq, committed_inp_nil d hq⟩
  | _ => cases h

/-- What a step that runs can do: its fetch or its tests fault, or it commits the instruction it fetched. -/
theorem step_runs_cases {s t : State} (hr : s.runs = true) (h : step s = .next t) :
    (∃ f, t = s.takeFault f) ∨
      ∃ i, fetch Config.width s = .ok i ∧ firstFault (instrTests Config.width s i) = none ∧ t = committed s i := by
  obtain rfl := step_eq_next.mp h
  rcases stepAt_cases Config.width s with ⟨hr', -⟩ | ⟨-, f, -, hs⟩ | ⟨-, i, f, -, -, hs⟩ | ⟨-, i, hi, ht, hs⟩
  · rw [hr] at hr'
    cases hr'
  · exact .inl ⟨f, hs⟩
  · exact .inl ⟨f, hs⟩
  · exact .inr ⟨i, hi, ht, hs⟩

/-- Settles O35: a fault keeps the status, and the commit phase writes it by the instruction. -/
theorem statusAfterAStep : Obligations.StatusAfterAStep := by
  intro s t h
  refine ⟨fun hr => ?_, fun hr hf => ?_, fun hr hf => ?_⟩
  · rw [← step_eq_next.mp h, stepAt_of_not_runs _ hr]
  · rcases step_runs_cases hr h with ⟨f, rfl⟩ | ⟨i, -, -, rfl⟩
    · rfl
    · exact absurd ((committed_fault s i).trans (s.runs_iff.mp hr).1) hf
  · rcases step_runs_cases hr h with ⟨f, rfl⟩ | ⟨i, hi, -, rfl⟩
    · cases hf
    · refine ⟨i, hi, (committed_status s i).trans ?_⟩
      cases i <;> rfl

/-! ### The commit phase on states that agree -/

theorem sourceValue_congr {s t : State} (hrb : t.rb = s.rb) (hm : t.mem = s.mem) (a : Source) :
    sourceValue t a = sourceValue s a := by
  cases a <;> simp only [sourceValue, hrb, hm]

theorem targetAddress_congr {s t : State} (hrb : t.rb = s.rb) (d : Target) : targetAddress t d = targetAddress s d := by
  cases d <;> simp only [targetAddress, hrb]

/-- The commit phase overwrites the status, whatever it was. -/
theorem committed_with_status (s : State) (st : Status) (i : Instr) :
    committed { s with status := st } i = committed s i := by
  have hv := sourceValue_congr (s := s) (t := { s with status := st }) rfl rfl
  have hd := targetAddress_congr (s := s) (t := { s with status := st }) rfl
  cases i with
  | inp d =>
    obtain ⟨_, _, _, _, _, _ | ⟨v, rest⟩, _⟩ := s
    · rfl
    · simp only [committed, hd]
  | _ => simp only [committed, hv, hd]

/-- The values that the commit phase of an instruction appends to the output queue. -/
def appended (s : State) : Instr → List Int
  | .out a => [sourceValue s a]
  | _ => []

theorem committed_outq_eq (s : State) (i : Instr) : (committed s i).outq = s.outq ++ appended s i := by
  cases i with
  | out a => rfl
  | _ => exact (committed_outq (by nofun)).trans (List.append_nil _).symm

/-- The commit phase appends the same values to any output queue and is the same in every other field. -/
theorem committed_with_outq (s : State) (q : List Int) (i : Instr) :
    committed { s with outq := q } i = { committed s i with outq := q ++ appended s i } := by
  have hv := sourceValue_congr (s := s) (t := { s with outq := q }) rfl rfl
  have hd := targetAddress_congr (s := s) (t := { s with outq := q }) rfl
  cases i with
  | inp d =>
    obtain ⟨_, _, _, _, _, _ | ⟨v, rest⟩, _⟩ := s
    · simp only [committed, appended, List.append_nil]
    · simp only [committed, hd, appended, List.append_nil]
  | _ => simp only [committed, hv, hd, appended, List.append_nil]

/-! ### The step on states that agree -/

/-- Two running engines that agree in `pc`, `rb` and memory step alike: both take the same fault, or both commit the
same instruction. -/
theorem stepAt_cases_of_agree (w : Width) {s u : State} (hrs : s.runs = true) (hru : u.runs = true)
    (hpc : u.pc = s.pc) (hrb : u.rb = s.rb) (hm : u.mem = s.mem) :
    (∃ f, stepAt w s = s.takeFault f ∧ stepAt w u = u.takeFault f) ∨
      ∃ i, stepAt w s = committed s i ∧ stepAt w u = committed u i := by
  have htable : priorityTable w u = priorityTable w s := priorityTable_congr hpc hrb hm
  cases hf : firstFault (priorityTable w s) with
  | some f =>
    exact .inl ⟨f, stepAt_of_priorityTable_some hrs hf, stepAt_of_priorityTable_some hru (htable ▸ hf)⟩
  | none =>
    obtain ⟨i, -, -, hi, -, hs⟩ := stepAt_of_priorityTable_none hrs hf
    obtain ⟨j, -, -, hj, -, hu⟩ := stepAt_of_priorityTable_none hru (htable ▸ hf)
    obtain rfl : i = j := Except.ok.inj (hi.symm.trans ((fetch_congr hpc hm).symm.trans hj))
    exact .inr ⟨i, hs, hu⟩

/-- Settles O36: another status than HALTED lets the same step happen, and the commit phase overwrites it. -/
theorem statusDoesNotGateTheStep : Obligations.StatusDoesNotGateTheStep := by
  intro s t st hs hst h
  obtain rfl := step_eq_next.mp h
  simp only [step_eq_next]
  cases hr : s.runs with
  | false =>
    have hfault : s.fault ≠ none := fun hf => by simp [State.runs, hf, hs] at hr
    have hr' : ({ s with status := st } : State).runs = false := by simp [State.runs, hfault]
    rw [stepAt_of_not_runs _ hr, stepAt_of_not_runs _ hr']
    exact ⟨fun hf => absurd hf hfault, fun _ => rfl⟩
  | true =>
    have hf := (s.runs_iff.mp hr).1
    have hr' : ({ s with status := st } : State).runs = true := (State.runs_iff _).mpr ⟨hf, hst⟩
    rcases stepAt_cases_of_agree Config.width hr hr' rfl rfl rfl with ⟨f, h1, h2⟩ | ⟨i, h1, h2⟩ <;> rw [h1, h2]
    · exact ⟨nofun, fun _ => rfl⟩
    · rw [committed_with_status]
      exact ⟨fun _ => rfl, fun hne => absurd ((committed_fault s i).trans hf) hne⟩

/-- Settles O37: the two engines step alike, and the commit phase appends the same values to both queues. -/
theorem theOutputQueueIsNeverRead : Obligations.TheOutputQueueIsNeverRead := by
  intro s t q h
  obtain rfl := step_eq_next.mp h
  simp only [step_eq_next]
  cases hr : s.runs with
  | false =>
    rw [stepAt_of_not_runs _ hr, stepAt_of_not_runs (s := { s with outq := q }) _ hr]
    exact ⟨[], (List.append_nil _).symm, by rw [List.append_nil]⟩
  | true =>
    rcases stepAt_cases_of_agree (u := { s with outq := q }) Config.width hr hr rfl rfl rfl with
      ⟨f, h1, h2⟩ | ⟨i, h1, h2⟩ <;> rw [h1, h2]
    · exact ⟨[], (List.append_nil _).symm, by rw [List.append_nil]; rfl⟩
    · exact ⟨appended s i, committed_outq_eq s i, committed_with_outq s q i⟩

/-- Settles O38: the two engines step alike, and the commit phase keeps the latch. -/
theorem inputNeverDecidesAFault : Obligations.InputNeverDecidesAFault := by
  intro s t u q h hu
  obtain rfl := step_eq_next.mp h
  obtain rfl := step_eq_next.mp hu
  cases hr : s.runs with
  | false => rw [stepAt_of_not_runs _ hr, stepAt_of_not_runs (s := { s with inq := q }) _ hr]
  | true =>
    rcases stepAt_cases_of_agree (u := { s with inq := q }) Config.width hr hr rfl rfl rfl with
      ⟨f, h1, h2⟩ | ⟨i, h1, h2⟩ <;> rw [h1, h2]
    · rfl
    · rw [committed_fault, committed_fault]

end Sys2Proof.Machine
end

section
/-! The host commands (60_exceptions.md section 8, 70_reset_and_hazards.md sections 1 and 2): reset, the register reads
and what each command answers. -/

namespace Sys2Proof.Machine

/-- Settles O49: a reset does not look at the engine, and an image reads back as its Words. -/
theorem resetLoadsTheImage : Obligations.ResetLoadsTheImage := by
  intro fuel image e hfits
  have hreset : command fuel (.reset image) e = resetResponse image := by cases e <;> rfl
  refine ⟨State.load image, ?_, rfl, rfl, rfl, rfl, rfl, rfl, fun a => ?_⟩
  · rw [hreset, resetResponse, if_pos hfits]
  · rw [State.load_mem, Memory.read_imageFrom, if_pos (Nat.zero_le a), Nat.sub_zero]

/-- Settles O50: command by command. -/
theorem onlyResetBeforeTheFirstReset : Obligations.OnlyResetBeforeTheFirstReset := by
  intro fuel c h
  cases c with
  | reset image => exact absurd rfl (h image)
  | _ => rfl

/-- Settles O51: the port takes every Word, and the push appends it. -/
theorem pushInputAppendsToTheQueue : Obligations.PushInputAppendsToTheQueue := fun _ _ _ hv => if_pos hv

/-- Settles O55: a register read answers the register, and `STEP` answers what its step leaves. -/
theorem registerReadsAndStepReply : Obligations.RegisterReadsAndStepReply := by
  refine fun fuel s => ⟨rfl, rfl, rfl, rfl, fun t ht => ?_⟩
  rw [command, State.command, ht]
  rfl

/-- A run command that returns replies with the status and the latch of the state it returns in. -/
theorem Response.ofRun_eq_returned {o : Option (Host.Outcome State Fault Refusal)} {r : Reply} {t : State} :
    Response.ofRun o = .returned r t ↔ r = .ended t.status t.fault ∧ o = some (.next t) := by
  match o with
  | none => simp [Response.ofRun]
  | some (.next u) =>
    simp only [Response.ofRun, Response.returned.injEq, Option.some.injEq, Host.Outcome.next.injEq]
    constructor
    · rintro ⟨rfl, rfl⟩
      exact ⟨rfl, rfl⟩
    · rintro ⟨rfl, rfl⟩
      exact ⟨rfl, rfl⟩
  | some (.refused why) => simp [Response.ofRun]

/-- No run command is refused, since its loop returns in a state or not at all. -/
theorem Response.ofRun_runLoop_ne_refused (stops : Status → Bool) (fuel : Nat) (s : State) (why : Refusal) :
    Response.ofRun (runLoop stops fuel s) ≠ .refused why := by
  cases h : runLoop stops fuel s with
  | none => nofun
  | some o =>
    obtain ⟨t, rfl⟩ := runLoop_next h
    nofun

end Sys2Proof.Machine
end

section
/-! The loop of RUN and RUN_UNTIL_OUTPUT (60_exceptions.md R121, R124): when it returns, told one step at a time, and
the one induction over the steps of a run. -/

namespace Sys2Proof.Machine

/-! ### A step that does not happen -/

theorem runs_eq_false_of_fault {s : State} {f : FaultRecord} (h : s.fault = some f) : s.runs = false := by
  rw [State.runs, h]
  rfl

theorem runs_eq_false_of_halted {s : State} (h : s.status = .halted) : s.runs = false := by
  rw [State.runs, h]
  exact Bool.and_false _

/-- Settles O15: with a fault latched the engine does not run. -/
theorem latchedFaultStopsTheEngine : Obligations.LatchedFaultStopsTheEngine := fun _ _ fuel h =>
  have hr := runs_eq_false_of_fault h
  ⟨step_of_not_runs hr, runLoop_stopped runStops fuel hr, runLoop_stopped outputStops fuel hr⟩

/-- Settles O16: a halted engine does not run. -/
theorem haltedStepIsANoop : Obligations.HaltedStepIsANoop := fun _ fuel h =>
  have hr := runs_eq_false_of_halted h
  ⟨step_of_not_runs hr, runLoop_stopped runStops fuel hr, runLoop_stopped outputStops fuel hr⟩

/-! ### The return of a run command -/

/-- After a step the loop returns on a fault or on a status of its list. -/
def returnsIn (stops : Status → Bool) (t : State) : Bool := t.fault.isSome || stops t.status

theorem runLoop_of_runs {s : State} (stops : Status → Bool) (n : Nat) (hr : s.runs = true) :
    runLoop stops (n + 1) s =
      if returnsIn stops (stepAt Config.width s) then some (.next (stepAt Config.width s))
      else runLoop stops n (stepAt Config.width s) :=
  runLoop_succ stops n hr

theorem returnsIn_eq_false {stops : Status → Bool} {t : State} :
    returnsIn stops t = false ↔ t.fault = none ∧ stops t.status = false := by
  rw [returnsIn, Bool.or_eq_false_iff, Option.isSome_eq_false_iff, Option.isNone_iff_eq_none]

/-- A loop that returns on HALTED goes on only with an engine that runs. -/
theorem runs_of_returnsIn_eq_false {stops : Status → Bool} (hh : stops .halted = true) {t : State}
    (h : returnsIn stops t = false) : t.runs = true := by
  obtain ⟨hf, hst⟩ := returnsIn_eq_false.mp h
  refine (State.runs_iff t).mpr ⟨hf, fun hhalt => ?_⟩
  rw [hhalt, hh] at hst
  cases hst

theorem runReturns_of_not_runs {stops : Status → Bool} {s t : State} (hr : s.runs = false) :
    RunReturns stops s t ↔ s = t := by
  simp only [RunReturns, runLoop_stopped stops _ hr, Option.some.injEq, Host.Outcome.next.injEq, exists_const]

/-- A running engine returns in the state its step leaves, or goes on from there. -/
theorem runReturns_of_runs {stops : Status → Bool} {s t : State} (hr : s.runs = true) :
    RunReturns stops s t ↔
      if returnsIn stops (stepAt Config.width s) then stepAt Config.width s = t
      else RunReturns stops (stepAt Config.width s) t := by
  have hfuel : RunReturns stops s t ↔ ∃ n, runLoop stops (n + 1) s = some (.next t) := by
    constructor
    · rintro ⟨_ | n, h⟩
      · rw [runLoop_zero stops hr] at h
        cases h
      · exact ⟨n, h⟩
    · exact fun ⟨n, h⟩ => ⟨n + 1, h⟩
  simp only [hfuel, runLoop_of_runs stops _ hr]
  split
  · simp
  · rfl

/-- Induction over the steps of a run, backwards from the state it returns in: the engine did not run, its one step
returned, or it went on from the state its step left. -/
theorem RunReturns.induct {stops : Status → Bool} {motive : State → Prop} {s t : State} (h : RunReturns stops s t)
    (stopped : t.runs = false → motive t)
    (last : ∀ u, u.runs = true → stepAt Config.width u = t → returnsIn stops t = true → motive u)
    (more : ∀ u, u.runs = true → returnsIn stops (stepAt Config.width u) = false →
      motive (stepAt Config.width u) → motive u) : motive s := by
  obtain ⟨fuel, h⟩ := h
  induction fuel generalizing s with
  | zero =>
    cases hr : s.runs with
    | true => cases (runLoop_zero stops hr).symm.trans h
    | false =>
      cases (runLoop_stopped stops 0 hr).symm.trans h
      exact stopped hr
  | succ n ih =>
    cases hr : s.runs with
    | false =>
      cases (runLoop_stopped stops (n + 1) hr).symm.trans h
      exact stopped hr
    | true =>
      rw [runLoop_of_runs stops n hr] at h
      cases hret : returnsIn stops (stepAt Config.width s) with
      | true =>
        rw [hret] at h
        cases h
        exact last s hr rfl hret
      | false =>
        rw [hret] at h
        exact more s hr hret (ih h)

/-- The state a run command returns in did not run, or is what a step left and returns. -/
theorem RunReturns.end_cases {stops : Status → Bool} {s t : State} (h : RunReturns stops s t) :
    t.runs = false ∨ ∃ u : State, u.runs = true ∧ stepAt Config.width u = t ∧ returnsIn stops t = true :=
  h.induct (motive := fun _ => t.runs = false ∨
      ∃ u : State, u.runs = true ∧ stepAt Config.width u = t ∧ returnsIn stops t = true)
    .inl (fun u hu ht hret => .inr ⟨u, hu, ht, hret⟩) (fun _ _ _ ih => ih)

/-- What every step keeps, a run command keeps. -/
theorem RunReturns.keeps {P : State → Prop} (hP : ∀ s, P s → P (stepAt Config.width s)) {stops : Status → Bool}
    {s t : State} (h : RunReturns stops s t) : P s → P t :=
  h.induct (motive := fun u => P u → P t) (fun _ => id) (fun u _ hu _ hs => hu ▸ hP u hs)
    (fun u _ _ ih hs => ih (hP u hs))

/-! ### The first stop, counted in steps (60_exceptions.md R121, R124) -/

/-- The state after `k` steps. -/
def stepN (k : Nat) (s : State) : State := (stepAt Config.width)^[k] s

theorem stepN_succ (k : Nat) (s : State) : stepN (k + 1) s = stepN k (stepAt Config.width s) := rfl

/-- One step more of the host's run, on any machine. -/
theorem core_run_succ (M : Host.Core) {s t : M.State} (h : M.step s = .next t) (k : Nat) :
    M.run (k + 1) s = M.run k t := by
  rw [Host.Core.run, h]

/-- The host's run of `k` steps never ends in a fault or a refusal. -/
theorem core_run_eq (k : Nat) (s : State) : Host.Core.run Sys2Proof.core k s = .next (stepN k s) := by
  induction k generalizing s with
  | zero => rfl
  | succ k ih => exact (core_run_succ Sys2Proof.core (step_eq_stepAt s) k).trans (ih _)

/-- The loop that returns on the statuses `on` stops after `k` steps from `s` and not before. -/
def FirstStop (on : List Status) (s : State) (k : Nat) : Prop :=
  stopsAt on k (stepN k s) = true ∧ ∀ j < k, stopsAt on j (stepN j s) = false

theorem stopsAt_zero (on : List Status) (s : State) : stopsAt on 0 s = !s.runs := by
  rw [stopsAt, State.runs]
  cases s.fault <;> simp

theorem firstStop_of_not_runs {on : List Status} {s : State} (hr : s.runs = false) {k : Nat} :
    FirstStop on s k ↔ k = 0 := by
  have h0 : stopsAt on 0 (stepN 0 s) = true := by rw [stepN, Function.iterate_zero, id, stopsAt_zero, hr]; rfl
  constructor
  · rintro ⟨-, hbefore⟩
    by_contra hk
    rw [hbefore 0 (Nat.pos_of_ne_zero hk)] at h0
    cases h0
  · rintro rfl
    exact ⟨h0, nofun⟩

theorem not_firstStop_zero {on : List Status} {s : State} (hr : s.runs = true) : ¬ FirstStop on s 0 := by
  rintro ⟨h, -⟩
  rw [stepN, Function.iterate_zero, id, stopsAt_zero, hr] at h
  cases h

section
variable {stops : Status → Bool} {on : List Status} (hon : ∀ st, stops st = decide (st ∈ on))
include hon

theorem stopsAt_succ (j : Nat) (t : State) : stopsAt on (j + 1) t = returnsIn stops t := by
  rw [stopsAt, returnsIn, hon]

/-- One step of a running engine: it is the first stop, or the count goes on from the state it leaves. -/
theorem firstStop_succ (hh : stops .halted = true) {s : State} (hr : s.runs = true) {k : Nat} :
    FirstStop on s (k + 1) ↔
      if returnsIn stops (stepAt Config.width s) then k = 0 else FirstStop on (stepAt Config.width s) k := by
  have h0 : stopsAt on 0 s = false := by rw [stopsAt_zero, hr]; rfl
  cases hret : returnsIn stops (stepAt Config.width s) with
  | true =>
    have h1 : stopsAt on 1 (stepN 1 s) = true := (stopsAt_succ hon 0 _).trans hret
    rw [if_pos rfl]
    constructor
    · rintro ⟨-, hbefore⟩
      by_contra hk
      rw [hbefore 1 (by omega)] at h1
      cases h1
    · rintro rfl
      exact ⟨h1, fun j hj => (Nat.lt_one_iff.mp hj) ▸ h0⟩
  | false =>
    have hshift (j : Nat) : stopsAt on (j + 1) (stepN (j + 1) s) = stopsAt on j (stepN j (stepAt Config.width s)) := by
      rw [stepN_succ]
      cases j with
      | zero =>
        rw [stepN, Function.iterate_zero, id, stopsAt_succ hon, hret, stopsAt_zero,
          runs_of_returnsIn_eq_false hh hret]
        rfl
      | succ j => rw [stopsAt_succ hon, stopsAt_succ hon]
    rw [if_neg Bool.false_ne_true, FirstStop, FirstStop, hshift, Nat.forall_lt_succ_left]
    simp only [hshift]
    exact and_congr_right fun _ => and_iff_right h0

/-- The loop returns within its fuel exactly in the state of the first stop, when the fuel suffices for it. -/
theorem runLoop_eq_next_iff (hh : stops .halted = true) (fuel : Nat) (s t : State) :
    runLoop stops fuel s = some (.next t) ↔ ∃ k ≤ fuel, FirstStop on s k ∧ stepN k s = t := by
  induction fuel generalizing s with
  | zero =>
    cases hr : s.runs with
    | false => simp [runLoop_stopped stops 0 hr, firstStop_of_not_runs hr, stepN]
    | true => simp [runLoop_zero stops hr, not_firstStop_zero hr]
  | succ n ih =>
    cases hr : s.runs with
    | false => simp [runLoop_stopped stops (n + 1) hr, firstStop_of_not_runs hr, stepN]
    | true =>
      have hpos : (∃ k ≤ n + 1, FirstStop on s k ∧ stepN k s = t) ↔
          ∃ k ≤ n, FirstStop on s (k + 1) ∧ stepN k (stepAt Config.width s) = t := by
        constructor
        · rintro ⟨_ | k, hk, hstop, ht⟩
          · exact absurd hstop (not_firstStop_zero hr)
          · exact ⟨k, Nat.le_of_succ_le_succ hk, hstop, ht⟩
        · rintro ⟨k, hk, hstop, ht⟩
          exact ⟨k + 1, Nat.succ_le_succ hk, hstop, ht⟩
      rw [hpos, runLoop_of_runs stops n hr]
      simp only [firstStop_succ hon hh hr]
      cases hret : returnsIn stops (stepAt Config.width s) with
      | true => simp [stepN]
      | false => simpa using ih (stepAt Config.width s)

theorem runReturns_iff_firstStop (hh : stops .halted = true) (s t : State) :
    RunReturns stops s t ↔ ∃ k, FirstStop on s k ∧ stepN k s = t := by
  simp only [RunReturns, runLoop_eq_next_iff hon hh]
  constructor
  · rintro ⟨_, k, _, h⟩
    exact ⟨k, h⟩
  · rintro ⟨k, h⟩
    exact ⟨k, k, le_refl k, h⟩

end

/-- The first stop, in terms of the host's run. -/
theorem exists_core_run_iff (on : List Status) (s t : State) :
    (∃ k, Host.Core.run Sys2Proof.core k s = .next t ∧ stopsAt on k t = true ∧
        ∀ j u, j < k → Host.Core.run Sys2Proof.core j s = .next u → stopsAt on j u = false) ↔
      ∃ k, FirstStop on s k ∧ stepN k s = t := by
  refine exists_congr fun k => ?_
  simp only [core_run_eq]
  constructor
  · rintro ⟨ht, hstop, hbefore⟩
    obtain rfl := Host.Outcome.next.inj ht
    exact ⟨⟨hstop, fun j hj => hbefore j _ hj rfl⟩, rfl⟩
  · rintro ⟨⟨hstop, hbefore⟩, rfl⟩
    refine ⟨rfl, hstop, fun j u hj hu => ?_⟩
    obtain rfl := Host.Outcome.next.inj hu
    exact hbefore j hj

/-- Settles O56: both commands are their loop, which returns at the first stop. -/
theorem runReturnsAtTheFirstStop : Obligations.RunReturnsAtTheFirstStop := by
  intro c stops on hc s t first
  have hon : ∀ st, stops st = decide (st ∈ on) := by
    rcases hc with ⟨-, rfl, rfl⟩ | ⟨-, rfl, rfl⟩ <;> intro st <;> cases st <;> rfl
  have hcmd (fuel : Nat) : command fuel c (some s) = Response.ofRun (runLoop stops fuel s) := by
    rcases hc with ⟨rfl, rfl, -⟩ | ⟨rfl, rfl, -⟩ <;> rfl
  have hh : stops .halted = true := by
    rcases hc with ⟨-, rfl, -⟩ | ⟨-, rfl, -⟩ <;> rfl
  have hreturns : RunReturns stops s t ↔ first :=
    (runReturns_iff_firstStop hon hh s t).trans (exists_core_run_iff on s t).symm
  refine ⟨hreturns, fun r => ?_, fun fuel why => ?_⟩
  · simp only [hcmd, Response.ofRun_eq_returned, exists_and_left]
    exact and_congr_right fun _ => hreturns
  · rw [hcmd]
    exact Response.ofRun_runLoop_ne_refused stops fuel s why

/-! ### The ends of a run -/

/-- An engine that does not run is faulted or over. -/
theorem over_or_faulted_of_not_runs {t : State} (hr : t.runs = false) :
    (t.isOver = true ∧ step t = .next t) ∨ t.fault ≠ none := by
  cases hf : t.fault with
  | some f => exact .inr nofun
  | none =>
    refine .inl ⟨?_, step_of_not_runs hr⟩
    simpa [State.runs, State.isOver, hf] using hr

/-- A step that leaves the engine waiting found an IN at `pc` and no input. -/
theorem waiting_of_stepAt {u t : State} (hr : u.runs = true) (ht : stepAt Config.width u = t) (hf : t.fault = none)
    (hst : t.status = .suspendedAwaitingInput) : t.inq = [] ∧ ∃ d, fetch Config.width t = .ok (.inp d) := by
  rcases step_runs_cases hr (step_eq_next.mpr ht) with ⟨f, rfl⟩ | ⟨i, hi, -, rfl⟩
  · cases hf
  · obtain ⟨d, rfl, hq, hstate⟩ := committed_waits hst
    have hfetch : fetch Config.width { u with status := .suspendedAwaitingInput } = fetch Config.width u :=
      fetch_congr rfl rfl
    rw [hstate]
    exact ⟨hq, d, hfetch.trans hi⟩

/-- Settles O57: the state RUN returns in is one that did not run, or one whose last step left a fault, HALTED or a
waiting engine. -/
theorem runEndsOverFaultedOrWaiting : Obligations.RunEndsOverFaultedOrWaiting := by
  intro s t h
  have stopped (hr : t.runs = false) : (t.isOver = true ∧ step t = .next t) ∨ t.fault ≠ none ∨
      (t.status = .suspendedAwaitingInput ∧ t.inq = [] ∧ ∃ d, fetch Config.width t = .ok (.inp d)) :=
    (over_or_faulted_of_not_runs hr).imp id .inl
  rcases h.end_cases with hr | ⟨u, hu, ht, hret⟩
  · exact stopped hr
  by_cases hf : t.fault = none
  · match hst : t.status with
    | .halted => exact hst ▸ stopped (runs_eq_false_of_halted hst)
    | .suspendedAwaitingInput => exact .inr (.inr ⟨rfl, waiting_of_stepAt hu ht hf hst⟩)
    | .ready | .suspendedAfterOutput =>
      rw [returnsIn, hf, hst] at hret
      cases hret
  · exact .inr (.inl hf)

/-! ### Output -/

/-- The engine could run and came to a stop on an output with no fault. -/
def EndsOnOutput (s t : State) : Prop := s.runs = true ∧ t.status = .suspendedAfterOutput ∧ t.fault = none

/-- One value is appended from `s` to `t`, or none, by whether the engine ends on an output. -/
def AppendsByEnd (s t : State) : Prop :=
  (EndsOnOutput s t ∧ ∃ v, t.outq = s.outq ++ [v]) ∨ (¬ EndsOnOutput s t ∧ t.outq = s.outq)

/-- Only OUT leaves the status of an output. -/
theorem committed_appends {s : State} (hr : s.runs = true) (i : Instr) : AppendsByEnd s (committed s i) := by
  have hf : (committed s i).fault = none := (committed_fault s i).trans (s.runs_iff.mp hr).1
  have other (hi : ∀ a, i ≠ .out a) (hst : statusAfter s i ≠ .suspendedAfterOutput) : AppendsByEnd s (committed s i) :=
    .inr ⟨fun h => hst ((committed_status s i).symm.trans h.2.1), committed_outq hi⟩
  cases i with
  | out a => exact .inl ⟨⟨hr, rfl, hf⟩, sourceValue s a, rfl⟩
  | inp d =>
    refine other nofun ?_
    rw [statusAfter]
    split <;> nofun
  | _ => exact other nofun nofun

theorem stepAt_appends {s : State} (hr : s.runs = true) : AppendsByEnd s (stepAt Config.width s) := by
  rcases step_runs_cases hr (step_eq_stepAt s) with ⟨f, hs⟩ | ⟨i, -, -, hs⟩ <;> rw [hs]
  · exact .inr ⟨(fun ⟨_, _, hf⟩ => nomatch hf), rfl⟩
  · exact committed_appends hr i

/-- Between the steps of a RUN_UNTIL_OUTPUT that goes on, nothing is appended. -/
theorem runUntilOutput_appends {s t : State} (h : RunReturns outputStops s t) : AppendsByEnd s t := by
  refine h.induct (fun hr => ?_) (fun u hu ht _ => ht ▸ stepAt_appends hu) (fun u hu hret ih => ?_)
  · exact .inr ⟨fun ⟨hrun, _⟩ => Bool.false_ne_true (hr.symm.trans hrun), rfl⟩
  · have hrun := runs_of_returnsIn_eq_false rfl hret
    have hquiet : (stepAt Config.width u).outq = u.outq := by
      rcases stepAt_appends hu with ⟨⟨-, hst, -⟩, -⟩ | ⟨-, hq⟩
      · have hno := (returnsIn_eq_false.mp hret).2
        rw [hst] at hno
        cases hno
      · exact hq
    rw [AppendsByEnd, EndsOnOutput, hquiet, hrun] at ih
    rw [AppendsByEnd, EndsOnOutput, hu]
    exact ih

/-- Settles O58: the two cases of `AppendsByEnd`, which exclude each other. -/
theorem runUntilOutputAppendsAtMostOne : Obligations.RunUntilOutputAppendsAtMostOne := by
  intro s t h
  rcases runUntilOutput_appends h with ⟨hend, hone⟩ | ⟨hend, hnone⟩
  · exact ⟨.inr hone, fun _ => hend, fun _ => hone⟩
  · refine ⟨.inl hnone, fun ⟨v, hv⟩ => ?_, fun he => absurd he hend⟩
    rw [hnone] at hv
    exact absurd (List.append_cancel_left ((List.append_nil _).trans hv)) nofun

/-- Settles O59: where RUN_UNTIL_OUTPUT goes on, RUN goes on; where it returns on an output, RUN goes on unless there
is a fault, and then both runs end there. -/
theorem runGoesOnPastOutput : Obligations.RunGoesOnPastOutput := by
  intro s t u h hst
  refine h.induct (motive := fun v => RunReturns runStops t u ↔ RunReturns runStops v u)
    (fun _ => Iff.rfl) (fun v hv ht _ => ?_) (fun v hv hret ih => ?_)
  · rw [runReturns_of_runs hv, ht]
    cases hf : t.fault with
    | some f => rw [returnsIn, hf, Option.isSome, Bool.true_or, if_pos rfl,
        runReturns_of_not_runs (runs_eq_false_of_fault hf)]
    | none => rw [returnsIn, hf, hst]; rfl
  · obtain ⟨hf, hno⟩ := returnsIn_eq_false.mp hret
    have hgo : returnsIn runStops (stepAt Config.width v) = false := by
      refine returnsIn_eq_false.mpr ⟨hf, ?_⟩
      revert hno
      cases (stepAt Config.width v).status <;> decide
    rw [runReturns_of_runs hv, hgo]
    exact ih

/-- A loop that goes on with READY never returns from a step that changes nothing. -/
theorem runHangs_of_unchanging {stops : Status → Bool} (hready : stops .ready = false) {s : State}
    (hr : s.runs = true) (hst : s.status = .ready) (hs : stepAt Config.width s = s) : RunHangs stops s := by
  have hgo : returnsIn stops s = false := returnsIn_eq_false.mpr ⟨(s.runs_iff.mp hr).1, hst ▸ hready⟩
  intro fuel
  induction fuel with
  | zero => exact runLoop_zero stops hr
  | succ n ih =>
    rw [runLoop_of_runs stops n hr, hs, hgo]
    exact ih

/-- Settles O60: both commands go on with READY. -/
theorem unchangingStepHangs : Obligations.UnchangingStepHangs := by
  intro s hr hst h
  have hs : stepAt Config.width s = s := step_eq_next.mp h
  exact ⟨runHangs_of_unchanging rfl hr hst hs, runHangs_of_unchanging rfl hr hst hs⟩

end Sys2Proof.Machine
end

section
/-! The invariant of 10_state.md R24: every value is a Word, memory is in canonical form, a waiting engine stands at an
IN. One lemma per part of a step: what is read is a Word, what is fetched has Words as parameters, what is stored and
what is reported is a Word. -/

namespace Sys2Proof.Machine

/-! ### Words -/

theorem holds_zero (w : Width) : w.holds 0 = true := by
  cases w with
  | unbounded => rfl
  | bits n =>
    have hpos : 1 ≤ 2 ^ (n - 1) := Nat.one_le_two_pow
    simp only [Width.holds, Bool.and_eq_true, decide_eq_true_eq, Int.ofNat_eq_natCast]
    omega

/-- Every listed address and every listed value of a memory is a Word. -/
def Memory.HoldsWords (w : Width) (m : Memory) : Prop :=
  ∀ c ∈ m, w.holds (Int.ofNat c.1) = true ∧ w.holds c.2 = true

theorem State.holdsWords_iff {w : Width} {s : State} :
    s.holdsWords w ↔ w.holds s.pc = true ∧ w.holds s.rb = true ∧ s.mem.HoldsWords w ∧
      (∀ v ∈ s.inq, w.holds v = true) ∧ (∀ v ∈ s.outq, w.holds v = true) ∧
      (∀ f ∈ s.fault, w.holds f.info = true) :=
  Iff.rfl

theorem Memory.HoldsWords.read {w : Width} {m : Memory} (h : m.HoldsWords w) (a : Nat) :
    w.holds (m.read a) = true := by
  rcases m.read_eq_zero_or_mem a with h0 | hmem
  · rw [h0]
    exact holds_zero w
  · exact (h _ hmem).2

theorem Memory.HoldsWords.write {w : Width} {m : Memory} (h : m.HoldsWords w) {a : Nat} {v : Int}
    (ha : w.holds (Int.ofNat a) = true) (hv : w.holds v = true) : (m.write a v).HoldsWords w := by
  intro c hc
  rcases Memory.mem_write hc with rfl | hc
  · exact ⟨ha, hv⟩
  · exact h c hc

theorem Memory.HoldsWords.cells {w : Width} {m : Memory} (h : m.HoldsWords w) (a n : Nat) :
    ∀ v ∈ m.cells a n, w.holds v = true := by
  induction n generalizing a with
  | zero => nofun
  | succ n ih =>
    intro v hv
    rcases List.mem_cons.mp hv with rfl | hv
    · exact h.read a
    · exact ih (a + 1) v hv

/-! ### What is fetched -/

/-- The parameters of the instruction at `pc` are cells of memory. -/
theorem instrAt_wfAt {w : Width} {s : State} (h : s.mem.HoldsWords w) (hd : Head) : (instrAt s hd).wfAt w = true := by
  have hlen : hd.op.paramCount ≤ (s.mem.cells (s.pc.toNat + 1) 3).length := by
    rw [Memory.cells_length]
    exact hd.op.paramCount_le_three
  rw [Instr.wfAt, instrAt, assemble_params _ _ hlen, List.all_eq_true]
  exact fun v hv => h.cells _ 3 v (List.mem_of_mem_take hv)

theorem wfAt_of_fetch {w : Width} {s : State} {i : Instr} (h : s.mem.HoldsWords w) (hf : fetch w s = .ok i) :
    i.wfAt w = true := by
  obtain ⟨-, hd, -, -, rfl⟩ := fetch_eq_ok.mp hf
  exact instrAt_wfAt h hd

/-! ### Tests that report a Word -/

/-- What a list of tests reports, if anything, has a Word as its `info`. -/
def ReportsWord (w : Width) (l : List FaultTest) : Prop := ∀ f, firstFault l = some f → w.holds f.info = true

theorem ReportsWord.append {w : Width} {l m : List FaultTest} (hl : ReportsWord w l) (hm : ReportsWord w m) :
    ReportsWord w (l ++ m) := fun f hf =>
  (firstFault_append_eq_some hf).elim (hl f) (hm f)

theorem reportsWord_nil (w : Width) : ReportsWord w [] := nofun

theorem ReportsWord.outOfRange {w : Width} {l : List FaultTest} (hl : ReportsWord w l) (v : Int) :
    ReportsWord w (outOfRange w v :: l) := by
  intro f hf
  rw [firstFault_outOfRange] at hf
  split at hf
  · exact hl f hf
  · cases hf
    exact holds_zero w

theorem reportsWord_isNegative {w : Width} {a : Int} (h : w.holds a = true) : ReportsWord w [isNegative a] := by
  intro f hf
  rw [firstFault_isNegative] at hf
  split at hf <;> cases hf
  exact h

/-- The address check of a relative parameter comes after its range check. -/
theorem reportsWord_relative (w : Width) (a : Int) : ReportsWord w [outOfRange w a, isNegative a] := by
  cases h : w.holds a with
  | true => exact (reportsWord_isNegative h).outOfRange a
  | false =>
    intro f hf
    rw [firstFault_outOfRange, h] at hf
    cases hf
    exact holds_zero w

theorem reportsWord_source {w : Width} (s : State) {a : Source} (h : w.holds a.param = true) :
    ReportsWord w (sourceTests w s a) := by
  cases a with
  | position p => exact reportsWord_isNegative h
  | immediate p => exact reportsWord_nil w
  | relative p => exact reportsWord_relative w _

theorem reportsWord_target {w : Width} (s : State) {d : Target} (h : w.holds d.param = true) :
    ReportsWord w (targetTests w s d) := by
  cases d with
  | position p => exact reportsWord_isNegative h
  | relative p => exact reportsWord_relative w _

/-- The tests of an instruction whose parameters are Words report Words. -/
theorem reportsWord_instrTests {w : Width} (s : State) {i : Instr} (h : i.wfAt w = true) :
    ReportsWord w (instrTests w s i) := by
  have hp : ∀ v ∈ i.params, w.holds v = true := List.all_eq_true.mp h
  have one (v : Int) : ReportsWord w [outOfRange w v] := (reportsWord_nil w).outOfRange v
  have two (v u : Int) : ReportsWord w [outOfRange w v, outOfRange w u] := (one u).outOfRange v
  cases i <;> simp only [Instr.params, List.forall_mem_cons, List.not_mem_nil, false_imp_iff, implies_true,
    and_true] at hp
  case add | mul =>
    obtain ⟨ha, hb, hd⟩ := hp
    exact (((reportsWord_source s ha).append (reportsWord_source s hb)).append (reportsWord_target s hd)).append
      (two _ _)
  case lt | eq =>
    obtain ⟨ha, hb, hd⟩ := hp
    exact (((reportsWord_source s ha).append (reportsWord_source s hb)).append (reportsWord_target s hd)).append
      (one _)
  case jt | jf =>
    obtain ⟨ha, hb⟩ := hp
    exact ((reportsWord_source s ha).append (reportsWord_source s hb)).append (one _)
  case inp => exact (reportsWord_target s hp).append (one _)
  case out => exact (reportsWord_source s hp).append (one _)
  case arb => exact (reportsWord_source s hp).append (two _ _)
  case hlt => exact reportsWord_nil w

theorem decodeFault_info (I : Int) {e : DecodeError} (h : decodeHead I = .error e) : (decodeFault e).info = I := by
  rw [decodeHead] at h
  split_ifs at h
  · cases h
    rfl
  · split at h
    · cases h
      rfl
    · split_ifs at h <;> cases h <;> rfl

theorem reportsWord_paramTests (w : Width) (s : State) (n : Nat) : ReportsWord w (paramTests w s n) := by
  intro f hf
  obtain ⟨k, -, hk⟩ := List.mem_map.mp (firstFault_mem hf)
  have hinfo : f.info = 0 := congrArg (fun c : FaultTest => c.2.info) hk.symm
  rw [hinfo]
  exact holds_zero w

/-- A step reports `pc`, the instruction word, 0 or an address that was in range. -/
theorem reportsWord_priorityTable {w : Width} {s : State} (h : s.holdsWords w) : ReportsWord w (priorityTable w s) := by
  obtain ⟨hpc, -, hmem, -⟩ := State.holdsWords_iff.mp h
  intro f hf
  rcases lt_or_ge s.pc 0 with hneg | hnonneg
  · rw [firstFault_priorityTable_of_neg w hneg] at hf
    cases hf
    exact hpc
  · rw [firstFault_priorityTable_of_nonneg w hnonneg] at hf
    cases hd : decodeHead (instrWord s) with
    | error e =>
      rw [hd] at hf
      cases hf
      rw [decodeFault_info _ hd]
      exact hmem.read _
    | ok hh =>
      rw [hd] at hf
      refine (reportsWord_paramTests w s hh.op.paramCount).append
        (reportsWord_instrTests s (instrAt_wfAt hmem hh)) f ?_
      rw [firstFault_append]
      exact hf

/-! ### What is committed -/

theorem holds_sourceValue {w : Width} {s : State} (h : s.mem.HoldsWords w) {a : Source}
    (ha : w.holds a.param = true) : w.holds (sourceValue s a) = true := by
  cases a with
  | position p => exact h.read _
  | immediate p => exact ha
  | relative p => exact h.read _

/-- When no test holds, every value that is range-tested is a Word. -/
theorem holds_of_outOfRange_mem {w : Width} {v : Int} {l : List FaultTest} (h : firstFault l = none)
    (hv : outOfRange w v ∈ l) : w.holds v = true := by
  obtain ⟨l₁, l₂, rfl⟩ := List.append_of_mem hv
  have htail := (firstFault_append_eq_none.mp h).2
  rw [firstFault_outOfRange] at htail
  by_contra hw
  rw [if_neg hw] at htail
  cases htail

/-- An address that a write target resolves to is a Word, as a cell number too. -/
theorem holds_targetAddress {w : Width} {s : State} {d : Target} (hd : w.holds d.param = true)
    (ht : firstFault (targetTests w s d) = none) : w.holds (Int.ofNat (targetAddress s d).toNat) = true := by
  have hword : w.holds (targetAddress s d) = true := by
    cases d with
    | position p => exact hd
    | relative p => exact holds_of_outOfRange_mem ht List.mem_cons_self
  rw [Int.ofNat_eq_natCast, Int.toNat_of_nonneg (targetAddress_nonneg ht)]
  exact hword

theorem param_mem_of_storeOf {s : State} {i : Instr} {d : Target} {v : Int} (h : storeOf s i = some (d, v)) :
    d.param ∈ i.params := by
  rcases storeOf_cases h with ⟨a, b, rfl, -⟩ | ⟨a, b, rfl, -⟩ | ⟨a, b, rfl, -⟩ | ⟨a, b, rfl, -⟩ | ⟨rfl, -⟩
  all_goals simp [Instr.params]

/-- A value stored was range-checked, is a truth value or was in the input queue. -/
theorem holds_stored {s : State} {i : Instr} {d : Target} {v : Int} (hinq : ∀ u ∈ s.inq, Config.width.holds u = true)
    (h : storeOf s i = some (d, v)) (ht : firstFault (instrTests Config.width s i) = none) :
    Config.width.holds v = true := by
  have truth (c : Prop) [Decidable c] : Config.width.holds (if c then 1 else 0) = true := by split <;> decide
  rcases storeOf_cases h with
    ⟨a, b, rfl, rfl⟩ | ⟨a, b, rfl, rfl⟩ | ⟨a, b, rfl, rfl⟩ | ⟨a, b, rfl, rfl⟩ | ⟨rfl, hv⟩
  · exact holds_of_outOfRange_mem ht (by simp [instrTests])
  · exact holds_of_outOfRange_mem ht (by simp [instrTests])
  · exact truth _
  · exact truth _
  · exact hinq v (List.mem_of_mem_head? hv)

/-- The memory an instruction commits holds Words in canonical form. -/
theorem committed_mem_holdsWords {s : State} {i : Instr} (h : s.holdsWords Config.width)
    (hwf : i.wfAt Config.width = true) (ht : firstFault (instrTests Config.width s i) = none) :
    (committed s i).mem.HoldsWords Config.width := by
  obtain ⟨-, -, hmem, hinq, -⟩ := State.holdsWords_iff.mp h
  cases hi : storeOf s i with
  | none => rwa [committed_mem_of_storeOf_none hi]
  | some c =>
    obtain ⟨d, v⟩ := c
    have hd := List.all_eq_true.mp hwf _ (param_mem_of_storeOf hi)
    rw [(committed_of_storeOf hi).1]
    exact hmem.write (holds_targetAddress hd (targetTests_of_storeOf hi ht)) (holds_stored hinq hi ht)

theorem committed_mem_wf {s : State} {i : Instr} (h : s.mem.wf = true) : (committed s i).mem.wf = true := by
  cases hi : storeOf s i with
  | none => rwa [committed_mem_of_storeOf_none hi]
  | some c =>
    rw [(committed_of_storeOf hi).1]
    exact Memory.write_wf _ _ h

/-- The new `pc` was range-checked, is a Word that was read, or is the old one. -/
theorem holds_committed_pc {s : State} {i : Instr} (h : s.holdsWords Config.width) (hwf : i.wfAt Config.width = true)
    (ht : firstFault (instrTests Config.width s i) = none) : Config.width.holds (committed s i).pc = true := by
  obtain ⟨hpc, -, hmem, -⟩ := State.holdsWords_iff.mp h
  have hp : ∀ v ∈ i.params, Config.width.holds v = true := List.all_eq_true.mp hwf
  cases hi : storeOf s i with
  | some c =>
    obtain ⟨-, hnext, -, hchecked⟩ := committed_of_storeOf hi
    rw [hnext]
    exact (hchecked _ ht).2
  | none =>
    cases i with
    | add _ _ _ | mul _ _ _ | lt _ _ _ | eq _ _ _ => cases hi
    | inp d =>
      cases hq : s.inq with
      | nil => rwa [committed_inp_nil d hq]
      | cons v rest => simp [storeOf, hq] at hi
    | out a | arb a => exact holds_of_outOfRange_mem ht (by simp [instrTests, committed])
    | jt a t | jf a t =>
      simp only [committed]
      split
      · exact holds_sourceValue hmem (hp _ (by simp [Instr.params]))
      · exact holds_of_outOfRange_mem ht (by simp [instrTests])
    | hlt => exact hpc

theorem holds_committed_rb {w : Width} {s : State} {i : Instr} (hrb : w.holds s.rb = true)
    (ht : firstFault (instrTests w s i) = none) : w.holds (committed s i).rb = true := by
  cases i with
  | arb a => exact holds_of_outOfRange_mem ht (by simp [instrTests, committed])
  | _ => rwa [committed_rb (by nofun)]

theorem holds_committed_inq {w : Width} {s : State} {i : Instr} (hinq : ∀ v ∈ s.inq, w.holds v = true) :
    ∀ v ∈ (committed s i).inq, w.holds v = true := by
  cases i with
  | inp d =>
    rcases committed_inp_inq s d with h | h <;> rw [h]
    · exact hinq
    · exact fun v hv => hinq v (List.mem_of_mem_tail hv)
  | _ => rwa [committed_inq (by nofun)]

theorem holds_appended {w : Width} {s : State} {i : Instr} (hmem : s.mem.HoldsWords w) (hwf : i.wfAt w = true) :
    ∀ v ∈ appended s i, w.holds v = true := by
  cases i with
  | out a =>
    have ha := List.all_eq_true.mp hwf a.param List.mem_cons_self
    exact List.forall_mem_singleton.mpr (holds_sourceValue hmem ha)
  | _ => nofun

theorem committed_holdsWords {s : State} {i : Instr} (h : s.holdsWords Config.width) (hwf : i.wfAt Config.width = true)
    (ht : firstFault (instrTests Config.width s i) = none) : (committed s i).holdsWords Config.width := by
  obtain ⟨hpc, hrb, hmem, hinq, houtq, hfault⟩ := State.holdsWords_iff.mp h
  refine State.holdsWords_iff.mpr ⟨holds_committed_pc h hwf ht, holds_committed_rb hrb ht,
    committed_mem_holdsWords h hwf ht, holds_committed_inq hinq, ?_, ?_⟩
  · rw [committed_outq_eq, List.forall_mem_append]
    exact ⟨houtq, holds_appended hmem hwf⟩
  · rwa [committed_fault]

/-! ### The step -/

/-- Whether a waiting engine stands at an IN depends on the status, `pc` and memory alone. -/
theorem State.waitsAtIn_congr {w : Width} {s t : State} (h : s.waitsAtIn w) (hst : t.status = s.status)
    (hpc : t.pc = s.pc) (hm : t.mem = s.mem) : t.waitsAtIn w := by
  intro hs
  obtain ⟨d, hd⟩ := h (hst ▸ hs)
  exact ⟨d, (fetch_congr hpc hm).trans hd⟩

/-- Taking a fault keeps the invariant when the fault reports a Word. -/
theorem State.Inv.takeFault {w : Width} {s : State} (h : s.Inv w) {f : FaultRecord} (hf : w.holds f.info = true) :
    (s.takeFault f).Inv w := by
  obtain ⟨⟨hpc, hrb, hmem, hinq, houtq, -⟩, hwf, hwait⟩ := h
  refine ⟨⟨hpc, hrb, hmem, hinq, houtq, ?_⟩, hwf, State.waitsAtIn_congr hwait rfl rfl rfl⟩
  intro g hg
  cases hg
  exact hf

/-- Committing an instruction that was fetched and whose tests have passed keeps the invariant. -/
theorem State.Inv.committed {s : State} (h : s.Inv Config.width) {i : Instr} (hi : fetch Config.width s = .ok i)
    (ht : firstFault (instrTests Config.width s i) = none) : (committed s i).Inv Config.width := by
  obtain ⟨hwords, hwf, -⟩ := h
  obtain ⟨-, -, hmem, -⟩ := State.holdsWords_iff.mp hwords
  refine ⟨committed_holdsWords hwords (wfAt_of_fetch hmem hi) ht, committed_mem_wf hwf, fun hs => ?_⟩
  obtain ⟨d, rfl, -, hstate⟩ := committed_waits hs
  have hfetch : fetch Config.width { s with status := .suspendedAwaitingInput } = fetch Config.width s :=
    fetch_congr rfl rfl
  exact ⟨d, hstate ▸ hfetch.trans hi⟩

theorem State.Inv.stepAt {s : State} (h : s.Inv Config.width) : (stepAt Config.width s).Inv Config.width := by
  cases hr : s.runs with
  | false =>
    rw [stepAt_of_not_runs _ hr]
    exact h
  | true =>
    cases hf : firstFault (priorityTable Config.width s) with
    | some f =>
      rw [stepAt_of_priorityTable_some hr hf]
      exact h.takeFault (reportsWord_priorityTable h.1 f hf)
    | none =>
      obtain ⟨i, -, -, hi, ht, hs⟩ := stepAt_of_priorityTable_none hr hf
      rw [hs]
      exact h.committed hi ht

/-- Settles O45: the two ends of a step keep the invariant. -/
theorem stepKeepsTheInvariant : Obligations.StepKeepsTheInvariant := by
  intro s t h hs
  obtain rfl := step_eq_next.mp hs
  exact h.stepAt

/-! ### Reset -/

theorem Memory.imageFrom_holdsWords {w : Width} {a : Nat} {image : List Int}
    (hw : ∀ v ∈ image, w.holds v = true) (ha : ∀ k < image.length, w.holds (Int.ofNat (a + k)) = true) :
    (Memory.imageFrom a image).HoldsWords w := by
  induction image generalizing a with
  | nil => nofun
  | cons v vs ih =>
    rw [List.forall_mem_cons] at hw
    have hrest : (Memory.imageFrom (a + 1) vs).HoldsWords w := by
      refine ih hw.2 fun k hk => ?_
      rw [Nat.add_right_comm, Nat.add_assoc]
      exact ha (k + 1) (Nat.succ_lt_succ hk)
    rw [Memory.imageFrom]
    split
    · exact hrest
    · exact List.forall_mem_cons.mpr ⟨⟨ha 0 (Nat.succ_pos _), hw.1⟩, hrest⟩

/-- A cell number below one that is a Word is a Word. -/
theorem holds_ofNat_of_le {w : Width} {a b : Nat} (h : a ≤ b) (hb : w.holds (Int.ofNat b) = true) :
    w.holds (Int.ofNat a) = true := by
  cases w with
  | unbounded => rfl
  | bits n =>
    simp only [Width.holds, Bool.and_eq_true, decide_eq_true_eq, Int.ofNat_eq_natCast] at hb ⊢
    omega

/-- The state after a reset with an image that fits the port meets the invariant. -/
theorem State.load_inv {w : Width} {image : List Int} (h : imageFits w image = true) : (State.load image).Inv w := by
  rw [imageFits, Bool.and_eq_true, List.all_eq_true] at h
  obtain ⟨hwords, hlen⟩ := h
  refine ⟨⟨holds_zero w, holds_zero w, Memory.imageFrom_holdsWords hwords fun k hk => ?_, nofun, nofun, nofun⟩,
    Memory.imageFrom_wf image, nofun⟩
  refine holds_ofNat_of_le (b := image.length - 1) (by omega) ?_
  have hcast : Int.ofNat (image.length - 1) = Int.ofNat image.length - 1 := by
    simp only [Int.ofNat_eq_natCast]
    omega
  rwa [hcast]

/-- Settles O44: it is the reset with the empty image. -/
theorem resetMeetsTheInvariant : Obligations.ResetMeetsTheInvariant := State.load_inv (image := []) (by decide)

/-! ### The host commands -/

theorem State.Inv.pushInput {w : Width} {s : State} (h : s.Inv w) {v : Int} (hv : w.holds v = true) :
    (s.pushInput v).Inv w := by
  obtain ⟨⟨hpc, hrb, hmem, hinq, houtq, hfault⟩, hwf, hwait⟩ := h
  exact ⟨⟨hpc, hrb, hmem, List.forall_mem_append.mpr ⟨hinq, List.forall_mem_singleton.mpr hv⟩, houtq, hfault⟩, hwf,
    State.waitsAtIn_congr hwait rfl rfl rfl⟩

theorem State.Inv.with_outq {w : Width} {s : State} (h : s.Inv w) {q : List Int} (hq : ∀ v ∈ q, w.holds v = true) :
    ({ s with outq := q } : State).Inv w := by
  obtain ⟨⟨hpc, hrb, hmem, hinq, -, hfault⟩, hwf, hwait⟩ := h
  exact ⟨⟨hpc, hrb, hmem, hinq, hq, hfault⟩, hwf, State.waitsAtIn_congr hwait rfl rfl rfl⟩

theorem resetResponse_inv {image : List Int} {r : Reply} {t : State} (h : resetResponse image = .returned r t) :
    t.Inv Config.width := by
  rw [resetResponse] at h
  split at h
  next hfits =>
    cases h
    exact State.load_inv hfits
  next => cases h

/-- A command that returns on an engine that has been reset keeps the invariant. -/
theorem State.Inv.command {s t : State} (h : s.Inv Config.width) {fuel : Nat} {c : Command} {r : Reply}
    (hc : s.command fuel c = .returned r t) : t.Inv Config.width := by
  have run {stops : Status → Bool} (hrun : Response.ofRun (runLoop stops fuel s) = .returned r t) :
      t.Inv Config.width :=
    RunReturns.keeps (P := State.Inv Config.width) (fun _ => State.Inv.stepAt)
      ⟨fuel, (Response.ofRun_eq_returned.mp hrun).2⟩ h
  cases c with
  | reset image => exact resetResponse_inv hc
  | pushInput v =>
    simp only [State.command] at hc
    split at hc
    next hv =>
      cases hc
      exact h.pushInput hv
    next => cases hc
  | step =>
    have hs := (Response.ofRun_eq_returned.mp hc).2
    exact stepKeepsTheInvariant s t h (Option.some.inj hs)
  | run => exact run hc
  | runUntilOutput => exact run hc
  | consumeOutput =>
    cases hq : s.outq with
    | nil =>
      cases (command_consumeOutput_of_error fuel (State.consumeOutput_of_nil hq)).symm.trans hc
      exact h
    | cons v rest =>
      cases (command_consumeOutput_of_ok fuel (State.consumeOutput_of_cons hq)).symm.trans hc
      obtain ⟨-, -, -, -, houtq, -⟩ := h.1
      exact h.with_outq fun u hu => houtq u (hq ▸ List.mem_cons_of_mem v hu)
  | peek a =>
    simp only [State.command] at hc
    split at hc
    · split at hc <;> cases hc
      exact h
    · cases hc
      exact h
  | hasOutput | getStatus | getPc | getRb | getFault =>
    cases hc
    exact h

/-- Settles O46: from no engine only a reset returns, and on an engine each command keeps the invariant. -/
theorem commandsKeepTheInvariant : Obligations.CommandsKeepTheInvariant := by
  intro fuel c e r t he hc
  cases e with
  | some s => exact (he s rfl).command hc
  | none =>
    cases c with
    | reset image => exact resetResponse_inv hc
    | _ => cases hc

end Sys2Proof.Machine
end

section
/-! Writes to memory, the addressing modes, and a store to the next instruction word (20_memory.md sections 2, 3 and
9). -/

namespace Sys2Proof.Machine

/-! ### Writes -/

/-- A write below 0 faults with the address (20_memory.md R33, 60_exceptions.md R104). -/
theorem memWrite_of_neg (m : Memory) {a : Int} (v : Int) (h : a < 0) :
    memWrite m a v = .error ⟨.negativeAddress, a⟩ := by
  rw [memWrite, address, if_pos h]
  rfl

theorem memWrite_of_nonneg (m : Memory) {a : Int} (v : Int) (h : 0 ≤ a) :
    memWrite m a v = .ok (m.write a.toNat v) :=
  memWrite_eq_ok.mpr ⟨h, rfl⟩

/-- A resolved write target is the address that the parameter names (20_memory.md R39). -/
theorem targetAddress_of_writeTarget {w : Width} {s : State} {d : Target} {n : Nat} (h : writeTarget w s d = .ok n) :
    targetAddress s d = Int.ofNat n := by
  rw [writeTarget_eq_guarded, guarded_eq_ok] at h
  obtain ⟨ht, rfl⟩ := h
  exact (Int.toNat_of_nonneg (targetAddress_nonneg ht)).symm

/-- Settles O40: the sign of the address decides whether a write faults, and the laws of memory say what it changes. -/
theorem memoryWriteChangesOneCell : Obligations.MemoryWriteChangesOneCell := by
  refine ⟨fun m _ v h => memWrite_of_neg m v h, fun m a v hwf ha => ?_, fun s d n v h => ?_⟩
  · refine ⟨m.write a.toNat v, memWrite_of_nonneg m v ha, Memory.write_wf _ v hwf, fun b => ?_, fun u => ?_⟩
    · have hcell : b = a.toNat ↔ Int.ofNat b = a := by
        rw [Int.ofNat_eq_natCast]
        omega
      simp only [Memory.read_write hwf, hcell]
    · rw [memWrite_of_nonneg _ u ha, memWrite_of_nonneg _ u ha, Memory.write_write hwf]
  · have htarget := targetAddress_of_writeTarget h
    refine ⟨htarget, ?_⟩
    rw [htarget]
    exact memWrite_of_nonneg _ v (Int.natCast_nonneg n)

/-! ### Addressing modes -/

theorem guarded_isNegative {α : Type} (a : Int) (v : α) :
    guarded [isNegative a] v = if a < 0 then .error ⟨.negativeAddress, a⟩ else .ok v := by
  rw [guarded, firstFault_isNegative]
  by_cases h : a < 0
  · rw [if_pos h, if_pos h]
  · rw [if_neg h, if_neg h]
    rfl

/-- The range check of a relative parameter comes before its address check (20_memory.md R36). -/
theorem guarded_relative {α : Type} (w : Width) (a : Int) (v : α) :
    guarded [outOfRange w a, isNegative a] v =
      if w.holds a = false then .error ⟨.arithmeticOverflow, 0⟩
      else if a < 0 then .error ⟨.negativeAddress, a⟩ else .ok v := by
  cases h : w.holds a with
  | false => rw [guarded, firstFault_outOfRange, h]; rfl
  | true => rw [guarded, firstFault_outOfRange, h]; exact guarded_isNegative a v

/-- Settles O41: the tests and the value of a source in each mode, written out. -/
theorem readOperandFollowsTheModeTable : Obligations.ReadOperandFollowsTheModeTable := fun w s p =>
  ⟨rfl, (readOperand_eq_guarded w s (.position p)).trans (guarded_isNegative p _),
    (readOperand_eq_guarded w s (.relative p)).trans (guarded_relative w (s.rb + p) _)⟩

/-- Settles O42: the tests and the address of a write target in each mode, written out. -/
theorem writeTargetIsNotDereferenced : Obligations.WriteTargetIsNotDereferenced := fun w s p =>
  ⟨(writeTarget_eq_guarded w s (.position p)).trans (guarded_isNegative p _),
    (writeTarget_eq_guarded w s (.relative p)).trans (guarded_relative w (s.rb + p) _)⟩

/-! ### A store to the next instruction word -/

/-- After a store to the cell after the instruction the engine stands at that cell, runs, and the cell holds the Word
stored. -/
theorem exec_store_next {i : Instr} {d : Target} {v : Int} {s t : State} (hwf : s.mem.wf = true)
    (hi : storeOf s i = some (d, v)) (hd : targetAddress s d = s.pc + Int.ofNat i.length) (h : exec i s = .next t)
    (hf : t.fault = none) :
    t.pc = targetAddress s d ∧ t.runs = true ∧ 0 ≤ t.pc ∧ Config.width.holds t.pc = true ∧ instrWord t = v := by
  rcases exec_cases h with ⟨ht, rfl⟩ | ⟨f, -, rfl⟩
  · obtain ⟨hmem, hpc, hst, hchecked⟩ := committed_of_storeOf hi
    obtain ⟨hnonneg, hholds⟩ := hchecked _ ht
    have hpc' : (committed s i).pc = targetAddress s d := hpc.trans hd.symm
    refine ⟨hpc', ?_, hpc' ▸ hnonneg, hpc ▸ hholds, ?_⟩
    · rw [State.runs_iff, hst]
      exact ⟨hf, nofun⟩
    · rw [instrWord, hpc', hmem, Memory.read_write_same hwf]
  · cases hf

/-- Settles O43: the fetch of the next step reads the Word just stored, and decodes it. -/
theorem storeToTheNextWordIsFetched : Obligations.StoreToTheNextWordIsFetched := by
  intro i d v s t hwf hi hd _ h hf
  obtain ⟨hpc, hr, hnonneg, hholds, hword⟩ := exec_store_next hwf hi hd h hf
  refine ⟨hpc, hr, fun e he => ?_, fun hh hhead hlast => ?_⟩
  · rw [← hword] at he
    exact ⟨fetch_of_decodeHead_error hnonneg he, step_of_decodeHead_error hr hnonneg he⟩
  · rw [← hword] at hhead
    have hfetch := fetch_eq_ok_of_holds hnonneg hholds hhead hlast
    rw [instrAt, ← assemble_cells] at hfetch
    exact ⟨hfetch, step_of_fetch_ok hr hfetch⟩

end Sys2Proof.Machine
end

section
/-! The width as a parameter (00_scope.md R2, section 4): the tables of two widths differ in their range tests alone. -/

namespace Sys2Proof.Machine

/-- Two tests that are the same test at two widths: a range test of one value, or one test of another cause. -/
def SameTest (w w' : Width) (c d : FaultTest) : Prop :=
  (∃ v, c = outOfRange w v ∧ d = outOfRange w' v) ∨ (c = d ∧ c.2.cause ≠ .arithmeticOverflow)

/-- Two lists of tests that are the same list at two widths. -/
abbrev SameTests (w w' : Width) : List FaultTest → List FaultTest → Prop := List.Forall₂ (SameTest w w')

section
variable (w w' : Width)

theorem sameTest_outOfRange (v : Int) : SameTest w w' (outOfRange w v) (outOfRange w' v) := .inl ⟨v, rfl, rfl⟩

theorem sameTest_of_cause {c : FaultTest} (h : c.2.cause ≠ .arithmeticOverflow) : SameTest w w' c c := .inr ⟨rfl, h⟩

theorem sameTest_isNegative (a : Int) : SameTest w w' (isNegative a) (isNegative a) := sameTest_of_cause w w' nofun

theorem sameTests_outOfRange (v : Int) : SameTests w w' [outOfRange w v] [outOfRange w' v] :=
  .cons (sameTest_outOfRange w w' v) .nil

theorem sameTests_relative (a : Int) :
    SameTests w w' [outOfRange w a, isNegative a] [outOfRange w' a, isNegative a] :=
  .cons (sameTest_outOfRange w w' a) (.cons (sameTest_isNegative w w' a) .nil)

theorem sameTests_source (s : State) (a : Source) : SameTests w w' (sourceTests w s a) (sourceTests w' s a) := by
  cases a with
  | position p => exact .cons (sameTest_isNegative w w' p) .nil
  | immediate p => exact .nil
  | relative p => exact sameTests_relative w w' _

theorem sameTests_target (s : State) (d : Target) : SameTests w w' (targetTests w s d) (targetTests w' s d) := by
  cases d with
  | position p => exact .cons (sameTest_isNegative w w' p) .nil
  | relative p => exact sameTests_relative w w' _

theorem sameTests_instr (s : State) (i : Instr) : SameTests w w' (instrTests w s i) (instrTests w' s i) := by
  have app {l m l' m' : List FaultTest} (h : SameTests w w' l m) (h' : SameTests w w' l' m') :
      SameTests w w' (l ++ l') (m ++ m') := List.rel_append h h'
  have source := sameTests_source w w' s
  have target := sameTests_target w w' s
  have one := sameTests_outOfRange w w'
  have two (v u : Int) : SameTests w w' [outOfRange w v, outOfRange w u] [outOfRange w' v, outOfRange w' u] :=
    .cons (sameTest_outOfRange w w' v) (one u)
  cases i with
  | add a b d | mul a b d => exact app (app (app (source a) (source b)) (target d)) (two _ _)
  | lt a b d | eq a b d => exact app (app (app (source a) (source b)) (target d)) (one _)
  | jt a t | jf a t => exact app (app (source a) (source t)) (one _)
  | inp d => exact app (target d) (one _)
  | out a => exact app (source a) (one _)
  | arb a => exact app (source a) (two _ _)
  | hlt => exact .nil

theorem sameTests_param (s : State) (n : Nat) : SameTests w w' (paramTests w s n) (paramTests w' s n) := by
  rw [paramTests, paramTests, SameTests, List.forall₂_map_left_iff, List.forall₂_map_right_iff, List.forall₂_same]
  exact fun k _ => sameTest_outOfRange w w' _

theorem sameTests_priorityTable (s : State) : SameTests w w' (priorityTable w s) (priorityTable w' s) := by
  refine .cons (sameTest_isNegative w w' _) (.cons (sameTest_of_cause w w' (by nofun)) ?_)
  cases Opcode.ofNat? ((instrWord s).toNat % 100) with
  | none => exact .cons (sameTest_of_cause w w' (by nofun)) .nil
  | some op =>
    refine List.rel_append (.cons (sameTest_of_cause w w' (by nofun)) (.cons (sameTest_of_cause w w' (by nofun))
      (.cons (sameTest_of_cause w w' (by nofun)) (sameTests_param w w' s op.paramCount)))) ?_
    cases decode (cellsAtPc s) with
    | error e => exact .nil
    | ok c => exact sameTests_instr w w' s c.1

end

/-- At a width that holds more values the first fault is the same, unless it is an overflow at the narrower. -/
theorem firstFault_of_sameTests {w w' : Width} (hle : ∀ v, w.holds v = true → w'.holds v = true)
    {l m : List FaultTest} (h : SameTests w w' l m) (hne : firstFault l ≠ some ⟨.arithmeticOverflow, 0⟩) :
    firstFault m = firstFault l := by
  induction h with
  | nil => rfl
  | @cons c d l m hcd _ ih =>
    rcases hcd with ⟨v, rfl, rfl⟩ | ⟨rfl, -⟩
    · rw [firstFault_outOfRange] at hne ⊢
      cases hv : w.holds v with
      | false => simp [hv] at hne
      | true =>
        rw [hv] at hne
        rw [firstFault_outOfRange, hle v hv, hv]
        exact ih hne
    · obtain ⟨b, f⟩ := c
      cases b with
      | true => rfl
      | false => exact ih hne

/-- With `W = infinity` no range test holds. -/
theorem firstFault_unbounded {w : Width} {l m : List FaultTest} (h : SameTests w .unbounded l m) (n : Int) :
    firstFault m ≠ some ⟨.arithmeticOverflow, n⟩ := by
  induction h with
  | nil => nofun
  | @cons c d l m hcd _ ih =>
    rcases hcd with ⟨v, rfl, rfl⟩ | ⟨rfl, hcause⟩
    · rw [firstFault_outOfRange]
      exact ih
    · obtain ⟨b, f⟩ := c
      cases b with
      | true => exact fun hf => hcause (congrArg FaultRecord.cause (Option.some.inj hf))
      | false => exact ih

/-- Every width that 00_scope.md R2 admits holds the Words of 64 bits. -/
theorem holds_of_admitted {w : Width} (h : w.admitted = true) {v : Int} (hv : Config.width.holds v = true) :
    w.holds v = true := by
  cases w with
  | unbounded => rfl
  | bits n =>
    have hn : 64 ≤ n := of_decide_eq_true h
    have hpow : 2 ^ (64 - 1) ≤ 2 ^ (n - 1) := Nat.pow_le_pow_right (by decide) (by omega)
    simp only [Config.width, Width.holds, Bool.and_eq_true, decide_eq_true_eq, Int.ofNat_eq_natCast] at hv ⊢
    omega

/-- Settles O47: the wider table finds the same first fault, and the decoded instruction has no part of the width. -/
theorem widerWordsAgreeUntilOverflow : Obligations.WiderWordsAgreeUntilOverflow := by
  intro w s t hw h hne
  obtain rfl := step_eq_next.mp h
  cases hr : s.runs with
  | false => rw [stepAt_of_not_runs _ hr, stepAt_of_not_runs _ hr]
  | true =>
    have hne64 := hne hr
    rw [stepAt_fault hr] at hne64
    have hsame : firstFault (priorityTable w s) = firstFault (priorityTable Config.width s) :=
      firstFault_of_sameTests (fun _ => holds_of_admitted hw) (sameTests_priorityTable Config.width w s) hne64
    cases hf : firstFault (priorityTable Config.width s) with
    | some f =>
      rw [stepAt_of_priorityTable_some hr hf, stepAt_of_priorityTable_some hr (hsame.trans hf)]
    | none =>
      obtain ⟨i, _, hi, -, -, hs⟩ := stepAt_of_priorityTable_none hr hf
      obtain ⟨j, _, hj, -, -, hs'⟩ := stepAt_of_priorityTable_none hr (hsame.trans hf)
      obtain rfl : i = j := congrArg Prod.fst (Except.ok.inj (hi.symm.trans hj))
      rw [hs, hs']

/-- Settles O48: the latch after a step is the table's answer, and no range test of the table holds. -/
theorem unboundedWordsNeverOverflow : Obligations.UnboundedWordsNeverOverflow := by
  intro s n hr
  rw [stepAt_fault hr]
  exact firstFault_unbounded (sameTests_priorityTable .unbounded .unbounded s) n

end Sys2Proof.Machine
end
